-- ==== Sys2Proof/Word.lean ====
section
/-! DEFINITION. The words of the unit: a byte of the buffer (00_scope.md R12), the 16-bit fields of an F16
(41_fixed_point.md R130), the 32-bit registers and the 64-bit registers and port (10_state.md R21). -/

namespace Sys2Proof

/-- A byte of the buffer, an unsigned value in 0..255 (R12). -/
abbrev Byte := BitVec 8

/-- A 16-bit field: IP or SF of an F16 (R130), or a 16-bit integer (R100). -/
abbrev Half := BitVec 16

/-- A 32-bit register or command word (R21, R70). -/
abbrev Word := BitVec 32

/-- A 64-bit register, the data of the host port, or a binary64 pattern (R14, R21). -/
abbrev Dword := BitVec 64

end Sys2Proof
end

