-- ==== Sys2Proof/Config.lean ====
section
/-! DEFINITION. The configuration of a unit (00_scope.md R5 to R11) and the one free value of the spec, the contents of
the buffer after a reset under BUF_RESET = UNSPECIFIED (70_reset_and_hazards.md R182). -/

namespace Sys2Proof

/-- NEG_MODE (R7): how ENCF16 splits its input into an integer part. -/
inductive NegMode where
  | trunc
  | floor
  deriving DecidableEq, Repr

/-- ARITH (R8): the arithmetic of the F16 scaler. -/
inductive Arith where
  | binary64
  | exact
  deriving DecidableEq, Repr

/-- INT_OVF (R9): what ENCF16 does with an integer part outside -32768..32767. -/
inductive IntOvf where
  | range
  | wrap
  deriving DecidableEq, Repr

/-- FRAC_OVF (R10): what ENCF16 does with a scaled fraction of 65536 or more. -/
inductive FracOvf where
  | wrap
  | range
  deriving DecidableEq, Repr

/-- BUF_RESET (R11): what the buffer holds after a reset. -/
inductive BufReset where
  | unspecified
  | zero
  deriving DecidableEq, Repr

/-- The six parameters of a unit. The five named ones have the spec's defaults (R7 to R11); BUF_LEN has none (R5). -/
structure Cfg where
  bufLen : Nat
  negMode : NegMode := .trunc
  arith : Arith := .binary64
  intOvf : IntOvf := .range
  fracOvf : FracOvf := .wrap
  bufReset : BufReset := .unspecified
  deriving DecidableEq, Repr

/-- The configuration of `Machine.State.reset`: BUF_LEN = 8, the length the spec's test vectors use, and every named
parameter at its default. DESIGN CHOICE (log 1): the spec fixes no BUF_LEN. -/
def Cfg.vectors : Cfg := { bufLen := 8 }

/-- The free draw of R182: what buffer byte `i` holds after reset number `k` under BUF_RESET = UNSPECIFIED, until
something writes it. No body: nothing can be proved of its value (log 5). -/
opaque Config.bufDraw : (k : Nat) → (i : Nat) → Byte

end Sys2Proof
end

