-- ==== Sys2Proof/Syntax.lean ====
section
/-! DEFINITION. The twelve commands of BOC command set 1 (30_encoding.md R74), in the opcode table's order. The suffix L
is LSBF, M is MSBF. The one operand of a command word is OFFSET (R71, R73). -/

namespace Sys2Proof

/-- A command with its starting byte index. An offset of 65536 or more is no command (`Instr.WellFormed`). -/
inductive Instr where
  | enc16L (offset : Nat)
  | enc16M (offset : Nat)
  | enc32L (offset : Nat)
  | enc32M (offset : Nat)
  | dec16L (offset : Nat)
  | dec16M (offset : Nat)
  | dec32L (offset : Nat)
  | dec32M (offset : Nat)
  | encf16L (offset : Nat)
  | encf16M (offset : Nat)
  | decf16L (offset : Nat)
  | decf16M (offset : Nat)
  deriving DecidableEq, Repr

/-- The OFFSET operand `o` (R71). -/
def Instr.offset : Instr → Nat
  | .enc16L o => o
  | .enc16M o => o
  | .enc32L o => o
  | .enc32M o => o
  | .dec16L o => o
  | .dec16M o => o
  | .dec32L o => o
  | .dec32M o => o
  | .encf16L o => o
  | .encf16M o => o
  | .decf16L o => o
  | .decf16M o => o

end Sys2Proof
end

