-- ==== Sys2Proof/WellFormed.lean ====
section
/-! DEFINITION. What the spec allows as a command and as a configuration. -/

namespace Sys2Proof

/-- OFFSET is "an unsigned integer from 0 to 65535" (30_encoding.md R71). -/
abbrev Instr.WellFormed (i : Instr) : Prop := i.offset < 65536

/-- "an integer with 0 <= BUF_LEN <= 65536" (00_scope.md R5). -/
abbrev Cfg.WellFormed (c : Cfg) : Prop := c.bufLen ≤ 65536

end Sys2Proof
end

