-- ==== Sys2Proof/Decode.lean ====
section
/-! DEFINITION. The command word (30_encoding.md R70): its fields, decoding by KIND, DIR and ORD (R72, R75, R76), and the
encoder, written from the opcode map of R74. -/

namespace Sys2Proof

/-- KIND = CMD[1:0] (R70). -/
def cmdKind (w : Word) : BitVec 2 := w.extractLsb' 0 2

/-- DIR = CMD[2] (R70): true is decode. -/
def cmdDir (w : Word) : Bool := w.getLsbD 2

/-- ORD = CMD[3] (R70): true is MSBF. -/
def cmdOrd (w : Word) : Bool := w.getLsbD 3

/-- RSV = CMD[15:4] (R70). -/
def cmdRsv (w : Word) : BitVec 12 := w.extractLsb' 4 12

/-- OFFSET = CMD[31:16], zero-extended (R71). -/
def cmdOffset (w : Word) : Nat := (w.extractLsb' 16 16).toNat

/-- Why a word is no command (R76). -/
inductive Illegal where
  /-- KIND = 00. -/
  | reservedKind
  /-- RSV ≠ 0. -/
  | reservedBits
  deriving DecidableEq, Repr

/-- The operand kind that KIND names (R70). -/
inductive Kind where
  | u16
  | u32
  | f16
  deriving DecidableEq, Repr

/-- KIND 01, 10 and 11; 00 is reserved (R70). -/
def kindOf (k : BitVec 2) : Option Kind :=
  if k = 0b01#2 then some .u16
  else if k = 0b10#2 then some .u32
  else if k = 0b11#2 then some .f16
  else none

/-- "KIND, DIR and ORD together select exactly one of the twelve commands" (R72). -/
def selectCommand : Kind → (dir : Bool) → (ord : Bool) → (o : Nat) → Instr
  | .u16, false, false, o => .enc16L o
  | .u16, false, true,  o => .enc16M o
  | .u32, false, false, o => .enc32L o
  | .u32, false, true,  o => .enc32M o
  | .u16, true,  false, o => .dec16L o
  | .u16, true,  true,  o => .dec16M o
  | .u32, true,  false, o => .dec32L o
  | .u32, true,  true,  o => .dec32M o
  | .f16, false, false, o => .encf16L o
  | .f16, false, true,  o => .encf16M o
  | .f16, true,  false, o => .decf16L o
  | .f16, true,  true,  o => .decf16M o

/-- Decoding of a command word: total, an illegal word is rejected by name (R75, R76). -/
def decode (w : Word) : Except Illegal Instr :=
  match kindOf (cmdKind w) with
  | none => .error .reservedKind
  | some k =>
    if cmdRsv w ≠ 0#12 then .error .reservedBits
    else .ok (selectCommand k (cmdDir w) (cmdOrd w) (cmdOffset w))

/-- The CMD[15:0] column of the opcode map (R74). -/
def Instr.opcode : Instr → Half
  | .enc16L _ => 0x0001#16
  | .enc16M _ => 0x0009#16
  | .enc32L _ => 0x0002#16
  | .enc32M _ => 0x000A#16
  | .dec16L _ => 0x0005#16
  | .dec16M _ => 0x000D#16
  | .dec32L _ => 0x0006#16
  | .dec32M _ => 0x000E#16
  | .encf16L _ => 0x0003#16
  | .encf16M _ => 0x000B#16
  | .decf16L _ => 0x0007#16
  | .decf16M _ => 0x000F#16

/-- The command word `{o[15:0], opcode}` (R74, R80). -/
def encode (i : Instr) : Word := BitVec.ofNat 16 i.offset ++ i.opcode

/-- What the decoder reads from the table's `nbits` bits `w`; a command is one 32-bit word, numbered as CMD's bits
are (R78). -/
def decodeTableWord (nbits w : Nat) : Option Instr :=
  (decode (BitVec.ofNat 32 (w % 2 ^ nbits))).toOption

end Sys2Proof
end

