-- ==== Sys2Proof/Machine/State.lean ====
section
/-! DEFINITION. The state of the unit (10_state.md R20 to R31), the actions of the host (30_encoding.md R80), and the
state after reset (70_reset_and_hazards.md R181, R182). -/

namespace Sys2Proof.Machine

/-- The buffer: the bytes written since reset, as address and byte, in the canonical form `Memory.wf` of Ops.lean. -/
abbrev Memory := List Host.Cell

/-- One action on the host port, or a reset (10_state.md R36 to R38, 30_encoding.md R80, 70_reset_and_hazards.md R180).
Register numbers and indices are unrestricted: a bad one is answered with HERR (R38). -/
inductive HostAction where
  /-- Read register `r` (RREG). -/
  | readReg (r : Nat)
  /-- Write the 64 port bits `v` to register `r` (WDIN, WCMD). -/
  | writeReg (r : Nat) (v : Dword)
  /-- Read buffer byte `i` (BRD). -/
  | readBuf (i : Nat)
  /-- Write the low 8 bits of `v` to buffer byte `i` (BWR). -/
  | writeBuf (i : Nat) (v : Dword)
  /-- Read DOUT, then write the value read to DIN (MOVOD): two accesses, so two steps. -/
  | movod
  /-- The platform asserts reset (R180). -/
  | reset
  deriving DecidableEq, Repr

/-- The answer of the host port to one access: HERR, and the data of a read (R36 to R38). -/
structure PortAnswer where
  data : Option Dword
  herr : Bool
  deriving DecidableEq, Repr

/-- The state. `cmd` to `mem` are the spec's: the six registers (R21; CFG is held as the parameters it reports) and the
buffer. `resets`, `host` and `answer` are the model's own (log 3, log 4, log 5): the counter the free draws are applied
to, the host's remaining actions, and the answer to the latest host access, which nothing reads. -/
structure State where
  cmd : Word
  din : Dword
  dout : Dword
  raw : Word
  status : Word
  cfg : Cfg
  mem : Memory
  resets : Nat
  host : List HostAction
  answer : Option PortAnswer
  deriving DecidableEq, Repr

/-- Nothing stops the unit: "no trap, no fault state, no halt and no lock-up" (60_exceptions.md R160), and every error is
a STATUS code. So there is no fault (log 14). -/
inductive Fault where
  deriving DecidableEq, Repr

/-- Why the model has no meaning for an instruction. -/
inductive Refusal where
  /-- Raised by an arm of `exec` whose instruction has no meaning yet; no arm of this model raises it. Safe. -/
  | notModelled (mnemonic : String)
  deriving DecidableEq, Repr

/-- The outcome of a step of this machine. -/
abbrev Result := Host.Outcome State Fault Refusal

/-- The machine right after its first reset (R181, R182), with the configuration `Cfg.vectors` (log 1), no byte of the
buffer written, and no host action to come (log 3). -/
def State.reset : State where
  cmd := 0x00000000#32
  din := 0x0000000000000000#64
  dout := 0x0000000000000000#64
  raw := 0x00000000#32
  status := 0x00000000#32
  cfg := Cfg.vectors
  mem := []
  resets := 0
  host := []
  answer := none

end Sys2Proof.Machine
end

