-- ==== Sys2Proof/Machine/Flags.lean ====
section
/-! DEFINITION. STATUS: its codes, its two flags and its word (10_state.md R25 to R30). -/

namespace Sys2Proof.Machine

/-- The values of STATUS.CODE that are ever written (R26). -/
inductive Code where
  | ok
  | oob
  | range
  | illegal
  deriving DecidableEq, Repr

/-- The four CODE bits (R26). -/
def Code.bits : Code → BitVec 4
  | .ok => 0#4
  | .oob => 1#4
  | .range => 2#4
  | .illegal => 3#4

/-- The word `{26'b0, FW, PL, CODE}` (R16, R25). -/
def statusWord (fw pl : Bool) (e : Code) : Word :=
  0#26 ++ BitVec.ofBool fw ++ BitVec.ofBool pl ++ e.bits

/-- STATUS.CODE, bits 3:0 (R25). -/
def statusCode (w : Word) : BitVec 4 := w.extractLsb' 0 4

/-- STATUS.PL, bit 4 (R27). -/
def statusPl (w : Word) : Bool := w.getLsbD 4

/-- STATUS.FW, bit 5 (R28). -/
def statusFw (w : Word) : Bool := w.getLsbD 5

/-- STATUS[31:6], reserved, always 0 (R25). -/
def statusReserved (w : Word) : BitVec 26 := w.extractLsb' 6 26

end Sys2Proof.Machine
end

