-- ==== Sys2Proof/Machine/Ops.lean ====
section
/-! DEFINITION. The named operations: writes of the registers, buffer bytes (00_scope.md R15), the end of a command with
and without an error (R16, 60_exceptions.md R163), and reset (70_reset_and_hazards.md R180 to R182). -/

namespace Sys2Proof.Machine

/-- `CMD <- v` (10_state.md R22). -/
def State.setCmd (s : State) (v : Word) : State := { s with cmd := v }

/-- `DIN <- v` (10_state.md R23). -/
def State.setDin (s : State) (v : Dword) : State := { s with din := v }

/-- `DOUT <- v` (10_state.md R24). -/
def State.setDout (s : State) (v : Dword) : State := { s with dout := v }

/-- `RAW <- v` (10_state.md R29). -/
def State.setRaw (s : State) (v : Word) : State := { s with raw := v }

/-- `STATUS <- v` (10_state.md R25). -/
def State.setStatus (s : State) (v : Word) : State := { s with status := v }

/-- What a byte that nothing has written since reset number `k` reads as (R182). -/
def unwrittenByte : BufReset → (k : Nat) → (i : Nat) → Byte
  | .zero, _, _ => 0#8
  | .unspecified, k, i => Config.bufDraw k i

/-- The byte listed at `i`, if one is. -/
def Memory.find : Memory → Nat → Option Byte
  | [], _ => none
  | c :: m, i => if c.1 = i then some c.2 else Memory.find m i

/-- The memory without the entries at `i`. -/
def Memory.erase : Memory → Nat → Memory
  | [], _ => []
  | c :: m, i => if c.1 = i then Memory.erase m i else c :: Memory.erase m i

/-- The memory with the entry `(i, b)` put before the first entry of a higher address. -/
def Memory.insert : Memory → Nat → Byte → Memory
  | [], i, b => [(i, b)]
  | c :: m, i, b => if i < c.1 then (i, b) :: c :: m else c :: Memory.insert m i b

/-- The byte at `i` of a memory whose unlisted addresses read as `dflt`. -/
def Memory.read (dflt : Nat → Byte) (m : Memory) (i : Nat) : Byte := (Memory.find m i).getD (dflt i)

/-- The memory with `b` at `i`; a byte equal to what the unlisted address reads as is not listed. -/
def Memory.write (dflt : Nat → Byte) (m : Memory) (i : Nat) (b : Byte) : Memory :=
  if b = dflt i then Memory.erase m i else Memory.insert (Memory.erase m i) i b

/-- The canonical form: addresses strictly rising, no entry equal to what an unlisted address reads as. -/
abbrev Memory.wf (dflt : Nat → Byte) (m : Memory) : Prop :=
  m.Pairwise (fun a b => a.1 < b.1) ∧ ∀ c ∈ m, c.2 ≠ dflt c.1

/-- What an unlisted address reads as in state `s`. -/
def State.unlisted (s : State) : Nat → Byte := unwrittenByte s.cfg.bufReset s.resets

/-- MemRead(i, 1) (R15). Rules use it only for `i < BUF_LEN`. -/
def State.readByte (s : State) (i : Nat) : Byte := Memory.read s.unlisted s.mem i

/-- MemWrite(i, 1, b) (R15). Rules use it only for `i < BUF_LEN`. -/
def State.writeByte (s : State) (i : Nat) (b : Byte) : State :=
  { s with mem := Memory.write s.unlisted s.mem i b }

/-- `raise E` (R16): the command ends, STATUS holds the code with PL = FW = 0, and nothing else is written (R163). This is
all there is to an exception here: no state is saved and no control is transferred (R170), so nothing returns from one
(R171). -/
def raise (e : Code) (s : State) : Result := .next (s.setStatus (statusWord false false e))

/-- The end of a command that succeeded: CODE = OK with the two flags (R25). -/
def complete (fw pl : Bool) (s : State) : Result := .next (s.setStatus (statusWord fw pl .ok))

/-- The bounds check of a command (20_memory.md R52), in unbounded arithmetic, before any byte is read or written. -/
def bounded (o w : Nat) (s : State) (body : Result) : Result :=
  if o + w > s.cfg.bufLen then raise .oob s else body

/-- Reset (R180): the registers at their reset values, CFG unchanged (R181), no byte written and fresh draws (R182). The
host's remaining actions are not the unit's state and stay (log 8). -/
def State.afterReset (s : State) : State :=
  { cmd := 0x00000000#32, din := 0x0000000000000000#64, dout := 0x0000000000000000#64, raw := 0x00000000#32,
    status := 0x00000000#32, cfg := s.cfg, mem := [], resets := s.resets + 1, host := s.host, answer := none }

end Sys2Proof.Machine
end

