-- ==== Sys2Proof/Machine/Operands.lean ====
section
/-! DEFINITION. The operands of a command: its width (20_memory.md R51), the value DIN gives it (30_encoding.md R73), and
the bytes of its range in its byte order (20_memory.md R53, R54; 40_byte_order.md R111). -/

namespace Sys2Proof.Machine

/-- The two byte orders (20_memory.md R53, R54). -/
inductive Order where
  /-- Least significant byte at the lowest index. -/
  | lsbf
  /-- Most significant byte at the lowest index. -/
  | msbf
  deriving DecidableEq, Repr

/-- W, the number of bytes a command touches (R51, R72). -/
def width : Instr → Nat
  | .enc16L _ => 2
  | .enc16M _ => 2
  | .enc32L _ => 4
  | .enc32M _ => 4
  | .dec16L _ => 2
  | .dec16M _ => 2
  | .dec32L _ => 4
  | .dec32M _ => 4
  | .encf16L _ => 4
  | .encf16M _ => 4
  | .decf16L _ => 4
  | .decf16M _ => 4

/-- An encode of a W-byte unsigned integer (R79). -/
def isIntEncode : Instr → Bool
  | .enc16L _ => true
  | .enc16M _ => true
  | .enc32L _ => true
  | .enc32M _ => true
  | .dec16L _ => false
  | .dec16M _ => false
  | .dec32L _ => false
  | .dec32M _ => false
  | .encf16L _ => false
  | .encf16M _ => false
  | .decf16L _ => false
  | .decf16M _ => false

/-- An encode of an F16 (R79). -/
def isF16Encode : Instr → Bool
  | .enc16L _ => false
  | .enc16M _ => false
  | .enc32L _ => false
  | .enc32M _ => false
  | .dec16L _ => false
  | .dec16M _ => false
  | .dec32L _ => false
  | .dec32M _ => false
  | .encf16L _ => true
  | .encf16M _ => true
  | .decf16L _ => false
  | .decf16M _ => false

/-- A decode: the commands that write DOUT (10_state.md R24). -/
def isDecode : Instr → Bool
  | .enc16L _ => false
  | .enc16M _ => false
  | .enc32L _ => false
  | .enc32M _ => false
  | .dec16L _ => true
  | .dec16M _ => true
  | .dec32L _ => true
  | .dec32M _ => true
  | .encf16L _ => false
  | .encf16M _ => false
  | .decf16L _ => true
  | .decf16M _ => true

/-- An F16 command: the commands that write RAW (10_state.md R29). -/
def isF16 : Instr → Bool
  | .enc16L _ => false
  | .enc16M _ => false
  | .enc32L _ => false
  | .enc32M _ => false
  | .dec16L _ => false
  | .dec16M _ => false
  | .dec32L _ => false
  | .dec32M _ => false
  | .encf16L _ => true
  | .encf16M _ => true
  | .decf16L _ => true
  | .decf16M _ => true

/-- The byte order of a command, its ORD bit (30_encoding.md R70, 20_memory.md R55). -/
def order : Instr → Order
  | .enc16L _ => .lsbf
  | .enc16M _ => .msbf
  | .enc32L _ => .lsbf
  | .enc32M _ => .msbf
  | .dec16L _ => .lsbf
  | .dec16M _ => .msbf
  | .dec32L _ => .lsbf
  | .dec32M _ => .msbf
  | .encf16L _ => .lsbf
  | .encf16M _ => .msbf
  | .decf16L _ => .lsbf
  | .decf16M _ => .msbf

/-- The value of ENC16: DIN[15:0], the other bits ignored (R73). -/
def State.din16 (s : State) : Half := s.din.extractLsb' 0 16

/-- The value of ENC32: DIN[31:0], the other bits ignored (R73). -/
def State.din32 (s : State) : Word := s.din.extractLsb' 0 32

/-- The lane of a W-byte value that sits at index o+k: k under LSBF, W-1-k under MSBF (R53, R54, R111). -/
def lane : Order → (w : Nat) → (k : Nat) → Nat
  | .lsbf, _, k => k
  | .msbf, w, k => w - 1 - k

/-- Byte k of a W-byte value in memory order: `(v >> (8*lane)) & 0xFF` (R53, R54). -/
def laneByte (ord : Order) (w k v : Nat) : Byte := BitVec.ofNat 8 (v >>> (8 * lane ord w k))

/-- Store the bytes of `v` for k from `k` on, `n` of them, at o+k. -/
def storeLanes (ord : Order) (w o v : Nat) : (n : Nat) → (k : Nat) → State → State
  | 0, _, s => s
  | n + 1, k, s => storeLanes ord w o v n (k + 1) (s.writeByte (o + k) (laneByte ord w k v))

/-- Encode (R53, R54): the W bytes of `v` to Buf[o] .. Buf[o+W-1]. -/
def storeValue (ord : Order) (w o v : Nat) (s : State) : State := storeLanes ord w o v w 0 s

/-- Decode (R53, R54): the sum of `MemRead(o+k, 1) << (8*lane)` for k below W. -/
def loadValue (ord : Order) (w o : Nat) (s : State) : Nat :=
  ((List.range w).map fun k => (s.readByte (o + k)).toNat <<< (8 * lane ord w k)).sum

/-- F16Put (41_fixed_point.md R135): IP at o, then SF at o+2, each in the command's order. -/
def f16Put (ord : Order) (o : Nat) (ip sf : Half) (s : State) : State :=
  storeValue ord 2 (o + 2) sf.toNat (storeValue ord 2 o ip.toNat s)

/-- F16Get (R135), the integer part. -/
def f16GetIp (ord : Order) (o : Nat) (s : State) : Half := BitVec.ofNat 16 (loadValue ord 2 o s)

/-- F16Get (R135), the scaled fraction. -/
def f16GetSf (ord : Order) (o : Nat) (s : State) : Half := BitVec.ofNat 16 (loadValue ord 2 (o + 2) s)

end Sys2Proof.Machine
end

