-- ==== Sys2Proof/Machine/ByteOrder.lean ====
section
/-! DEFINITION. The byte-order converter (40_byte_order.md): the eight integer commands, R100 to R107, over one encode and
one decode. -/

namespace Sys2Proof.Machine

/-- An integer encode: bounds, then the W bytes of `v`, STATUS = OK. -/
def encodeInt (ord : Order) (w o v : Nat) (s : State) : Result :=
  bounded o w s (complete false false (storeValue ord w o v s))

/-- An integer decode: bounds, then DOUT <- zext_64 of the value, STATUS = OK. -/
def decodeInt (ord : Order) (w o : Nat) (s : State) : Result :=
  bounded o w s (complete false false (s.setDout (BitVec.ofNat 64 (loadValue ord w o s))))

/-- ENC16.L (R100). -/
def execEnc16L (o : Nat) (s : State) : Result := encodeInt .lsbf 2 o s.din16.toNat s

/-- ENC16.M (R101). -/
def execEnc16M (o : Nat) (s : State) : Result := encodeInt .msbf 2 o s.din16.toNat s

/-- ENC32.L (R102). -/
def execEnc32L (o : Nat) (s : State) : Result := encodeInt .lsbf 4 o s.din32.toNat s

/-- ENC32.M (R103). -/
def execEnc32M (o : Nat) (s : State) : Result := encodeInt .msbf 4 o s.din32.toNat s

/-- DEC16.L (R104). -/
def execDec16L (o : Nat) (s : State) : Result := decodeInt .lsbf 2 o s

/-- DEC16.M (R105). -/
def execDec16M (o : Nat) (s : State) : Result := decodeInt .msbf 2 o s

/-- DEC32.L (R106). -/
def execDec32L (o : Nat) (s : State) : Result := decodeInt .lsbf 4 o s

/-- DEC32.M (R107). -/
def execDec32M (o : Nat) (s : State) : Result := decodeInt .msbf 4 o s

end Sys2Proof.Machine
end

