-- ==== Sys2Proof/Machine/Binary64.lean ====
section
/-! DEFINITION. The binary64 primitives of 00_scope.md R14: classes, the exact value of a pattern, and the pattern
nearest to a rational with ties to even. -/

namespace Sys2Proof.Machine

/-- The exponent field d[62:52]. -/
def expField (d : Dword) : Nat := (d.extractLsb' 52 11).toNat

/-- The fraction field d[51:0]. -/
def fracField (d : Dword) : Nat := (d.extractLsb' 0 52).toNat

/-- isNaN(d): d[62:52] = 0x7FF and d[51:0] ≠ 0. -/
def isNaN (d : Dword) : Bool := expField d == 0x7FF && fracField d != 0

/-- isInf(d): d[62:52] = 0x7FF and d[51:0] = 0. -/
def isInf (d : Dword) : Bool := expField d == 0x7FF && fracField d == 0

/-- Neither a NaN nor an infinity. -/
def isFinite (d : Dword) : Bool := expField d != 0x7FF

/-- The significand of a pattern as an integer: the fraction field, with the leading bit 2^52 unless the exponent field is 0
(a zero or a subnormal). -/
def significand (d : Dword) : Nat := if expField d = 0 then fracField d else 2 ^ 52 + fracField d

/-- The power of two that one unit of the significand stands for: the exponent field (1 for a subnormal) less 1075. -/
def unitExponent (d : Dword) : Int := (max (expField d) 1 : Nat) - 1075

/-- `m * 2^e`, exactly. -/
def scaleTwo (m e : Int) : Rat := if 0 ≤ e then ((m * 2 ^ e.toNat : Int) : Rat) else mkRat m (2 ^ (-e).toNat)

/-- real(d), the exact value of a finite pattern; +0 and -0 both give 0 (R14). It is not used of a NaN or an infinity
(log 9). -/
@[irreducible] def real (d : Dword) : Rat :=
  scaleTwo (if d.getLsbD 63 then -(significand d : Int) else (significand d : Int)) (unitExponent d)

/-- n / d rounded to the nearest natural number, a tie to the even one. -/
def roundHalfEven (n d : Nat) : Nat :=
  if 2 * (n % d) < d then n / d
  else if 2 * (n % d) > d then n / d + 1
  else if n / d % 2 = 0 then n / d
  else n / d + 1

/-- The exponent e with 2^e <= n/d < 2^(e+1), for n and d above 0. -/
def floorLog (n d : Nat) : Int :=
  let e : Int := (Nat.log2 n : Int) - Nat.log2 d
  let fits : Bool := if 0 ≤ e then d * 2 ^ e.toNat ≤ n else d ≤ n * 2 ^ (-e).toNat
  if fits then e else e - 1

/-- The exponent of the last place of a binary64 number near n/d: 52 below its leading bit, and never below -1074. -/
def lastPlace (n d : Nat) : Int := max (floorLog n d - 52) (-1074)

/-- n/d in units of 2^u, rounded half to even. -/
def roundedUnits (n d : Nat) (u : Int) : Nat :=
  if 0 ≤ u then roundHalfEven n (d * 2 ^ u.toNat) else roundHalfEven (n * 2 ^ (-u).toNat) d

/-- The low 63 bits of the pattern nearest to n/d, for n and d above 0: consecutive patterns are consecutive numbers, so the
rounded significand is added to the pattern of the exponent. From 2^1024 on it is the infinity's (log 9); no command
reaches that. -/
def nearestMagnitude (n d : Nat) : Nat :=
  let u := lastPlace n d
  min ((u + 1074).toNat * 2 ^ 52 + roundedUnits n d u) (0x7FF * 2 ^ 52)

/-- RNE64(q) (R14): the nearest pattern, ties to the even significand; +0 for 0. -/
@[irreducible] def rne64 (q : Rat) : Dword :=
  if q = 0 then 0#64
  else BitVec.ofBool (decide (q < 0)) ++ BitVec.ofNat 63 (nearestMagnitude q.num.natAbs q.den)

end Sys2Proof.Machine
end

