-- ==== Sys2Proof/Machine/Scaler.lean ====
section
/-! DEFINITION. The F16 scaler: F16Split (41_fixed_point.md R131) and F16Join (R134), under every setting of NEG_MODE,
ARITH, INT_OVF and FRAC_OVF. -/

namespace Sys2Proof.Machine

/-- SCALE (00_scope.md R6). -/
def scale : Nat := 100000

/-- The value of an F16, `sint16(IP) + SF / SCALE` (R130). -/
def f16Value (ip sf : Half) : Rat := (ip.toInt : Rat) + (sf.toNat : Rat) / (scale : Rat)

/-- trunc(X), toward zero (R13). -/
def truncRat (x : Rat) : Int := if 0 ≤ x then x.floor else -(-x).floor

/-- t, the integer part (R131, source step 1; R7). -/
def integerPart (mode : NegMode) (x : Rat) : Int :=
  match mode with
  | .trunc => truncRat x
  | .floor => x.floor

/-- p, the scaled fraction before its floor (R131; R8). -/
def scaledProduct (a : Arith) (fr : Rat) : Rat :=
  match a with
  | .binary64 => real (rne64 (real (rne64 fr) * (scale : Rat)))
  | .exact => fr * (scale : Rat)

/-- m, `floor(p) mod SCALE` with the mathematical modulo (R131, source step 3; R13). -/
def scaledFraction (c : Cfg) (x : Rat) : Int :=
  (scaledProduct c.arith (x - (integerPart c.negMode x : Rat))).floor % (scale : Int)

/-- What F16Split returns when it does not return RANGE. -/
structure F16Fields where
  ip : Half
  sf : Half
  pl : Bool
  fw : Bool
  deriving DecidableEq, Repr

/-- The integer part does not fit and INT_OVF rejects it (R131, R9). -/
abbrev intRejected (c : Cfg) (t : Int) : Prop := (t < -32768 ∨ t > 32767) ∧ c.intOvf = .range

/-- The scaled fraction does not fit and FRAC_OVF rejects it (R131, R10). -/
abbrev fracRejected (c : Cfg) (m : Int) : Prop := m ≥ 65536 ∧ c.fracOvf = .range

/-- The fields for an accepted input of value `x`, integer part `t` and scaled fraction `m` (R131): the low 16 bits of
each, PL when the F16 does not stand for exactly `x`, FW when `m` did not fit. -/
def f16FieldsOf (x : Rat) (t m : Int) : F16Fields :=
  let ip := BitVec.ofInt 16 t
  let sf := BitVec.ofInt 16 m
  { ip := ip, sf := sf, pl := decide (x ≠ f16Value ip sf), fw := decide (m ≥ 65536) }

/-- F16Split (R131); `none` is RANGE. -/
def f16Split (c : Cfg) (d : Dword) : Option F16Fields :=
  if isNaN d || isInf d then none
  else
    let x := real d
    let t := integerPart c.negMode x
    if intRejected c t then none
    else
      let m := scaledFraction c x
      if fracRejected c m then none else some (f16FieldsOf x t m)

/-- F16Join (R134). -/
def f16Join (a : Arith) (ip sf : Half) : Dword :=
  match a with
  | .binary64 => rne64 ((ip.toInt : Rat) + real (rne64 ((sf.toNat : Rat) / (scale : Rat))))
  | .exact => rne64 (f16Value ip sf)

end Sys2Proof.Machine
end

