-- ==== Sys2Proof/Machine/FixedPoint.lean ====
section
/-! DEFINITION. The F16 commands (41_fixed_point.md R140 to R143) over one encode and one decode. -/

namespace Sys2Proof.Machine

/-- An F16 encode (R140): bounds, then F16Split of DIN; on RANGE nothing but STATUS; else the four bytes, RAW <- {IP, SF},
and STATUS with PL and FW. -/
def encodeF16 (ord : Order) (o : Nat) (s : State) : Result :=
  bounded o 4 s
    (match f16Split s.cfg s.din with
     | none => raise .range s
     | some r => complete r.fw r.pl ((f16Put ord o r.ip r.sf s).setRaw (r.ip ++ r.sf)))

/-- An F16 decode (R142): bounds, then IP and SF from the four bytes, DOUT <- F16Join, RAW <- {IP, SF}, STATUS = OK. -/
def decodeF16 (ord : Order) (o : Nat) (s : State) : Result :=
  bounded o 4 s
    (complete false false
      ((s.setDout (f16Join s.cfg.arith (f16GetIp ord o s) (f16GetSf ord o s))).setRaw
        (f16GetIp ord o s ++ f16GetSf ord o s)))

/-- ENCF16.L (R140). -/
def execEncf16L (o : Nat) (s : State) : Result := encodeF16 .lsbf o s

/-- ENCF16.M (R141). -/
def execEncf16M (o : Nat) (s : State) : Result := encodeF16 .msbf o s

/-- DECF16.L (R142). -/
def execDecf16L (o : Nat) (s : State) : Result := decodeF16 .lsbf o s

/-- DECF16.M (R143). -/
def execDecf16M (o : Nat) (s : State) : Result := decodeF16 .msbf o s

end Sys2Proof.Machine
end

