-- ==== Sys2Proof/Machine/Dispatch.lean ====
section
/-! DEFINITION. What each command does: one arm per constructor of Instr. -/

namespace Sys2Proof.Machine

def exec (i : Instr) (s : State) : Host.Outcome State Fault Refusal :=
  match i with
  | .enc16L o => Sys2Proof.Machine.execEnc16L o s
  | .enc16M o => Sys2Proof.Machine.execEnc16M o s
  | .enc32L o => Sys2Proof.Machine.execEnc32L o s
  | .enc32M o => Sys2Proof.Machine.execEnc32M o s
  | .dec16L o => Sys2Proof.Machine.execDec16L o s
  | .dec16M o => Sys2Proof.Machine.execDec16M o s
  | .dec32L o => Sys2Proof.Machine.execDec32L o s
  | .dec32M o => Sys2Proof.Machine.execDec32M o s
  | .encf16L o => Sys2Proof.Machine.execEncf16L o s
  | .encf16M o => Sys2Proof.Machine.execEncf16M o s
  | .decf16L o => Sys2Proof.Machine.execDecf16L o s
  | .decf16M o => Sys2Proof.Machine.execDecf16M o s

end Sys2Proof.Machine
end

