-- ==== Sys2Proof/Machine/HostPort.lean ====
section
/-! DEFINITION. The host port (10_state.md R21, R22, R31, R36 to R38): register and buffer accesses, and the issue of a
command by a write of CMD. -/

namespace Sys2Proof.Machine

/-- The word of CFG (R31). -/
def cfgWord (c : Cfg) : Word :=
  0#3
    ++ BitVec.ofBool (c.bufReset = .zero)
    ++ BitVec.ofBool (c.fracOvf = .range)
    ++ BitVec.ofBool (c.intOvf = .wrap)
    ++ BitVec.ofBool (c.arith = .exact)
    ++ BitVec.ofBool (c.negMode = .floor)
    ++ 0#7
    ++ BitVec.ofNat 17 c.bufLen

/-- The 64-bit read value of register `r`, a 32-bit register zero-extended; none for a number above 5 (R21, R38). -/
def readRegister (s : State) : (r : Nat) → Option Dword
  | 0 => some (s.cmd.setWidth 64)
  | 1 => some s.din
  | 2 => some s.dout
  | 3 => some (s.raw.setWidth 64)
  | 4 => some (s.status.setWidth 64)
  | 5 => some ((cfgWord s.cfg).setWidth 64)
  | _ + 6 => none

/-- The state with the port's answer to a read. -/
def State.answerRead (s : State) (data : Dword) (herr : Bool) : State :=
  { s with answer := some { data := some data, herr := herr } }

/-- The state with the port's answer to a write. -/
def State.answerWrite (s : State) (herr : Bool) : State :=
  { s with answer := some { data := none, herr := herr } }

/-- Execution of the word that stands in CMD, once and completely (R22): ILLEGAL is checked before anything else (R76). -/
def issue (s : State) : Result :=
  match decode s.cmd with
  | .ok i => exec i s
  | .error _ => raise .illegal s

/-- A read of register `r` (R36, R38): it has no side effect (20_memory.md R61). -/
def hostReadReg (r : Nat) (s : State) : Result :=
  match readRegister s r with
  | some v => .next (s.answerRead v false)
  | none => .next (s.answerRead 0#64 true)

/-- A write of register `r` (R21, R36, R38): CMD takes the low 32 bits and issues them, DIN takes all 64, a read-only
register ignores the write, a number above 5 answers HERR. -/
def hostWriteReg (r : Nat) (v : Dword) (s : State) : Result :=
  match r with
  | 0 => issue ((s.answerWrite false).setCmd (v.setWidth 32))
  | 1 => .next ((s.answerWrite false).setDin v)
  | 2 => .next (s.answerWrite false)
  | 3 => .next (s.answerWrite false)
  | 4 => .next (s.answerWrite false)
  | 5 => .next (s.answerWrite false)
  | _ + 6 => .next (s.answerWrite true)

/-- A read of buffer byte `i`, zero-extended (R37, R38). -/
def hostReadBuf (i : Nat) (s : State) : Result :=
  if i < s.cfg.bufLen then .next (s.answerRead ((s.readByte i).setWidth 64) false)
  else .next (s.answerRead 0#64 true)

/-- A write of buffer byte `i` with the low 8 bits of the write data (R37, R38). -/
def hostWriteBuf (i : Nat) (v : Dword) (s : State) : Result :=
  if i < s.cfg.bufLen then .next ((s.writeByte i (v.setWidth 8)).answerWrite false)
  else .next (s.answerWrite true)

/-- MOVOD (30_encoding.md R80): the host reads DOUT, and its next action is the write of the value read to DIN (log 7). -/
def hostMovod (s : State) : Result :=
  .next { s with
    host := .writeReg 1 s.dout :: s.host
    answer := some { data := some s.dout, herr := false } }

/-- One host action on a state whose `host` holds the actions after it. -/
def hostAct : HostAction → State → Result
  | .readReg r, s => hostReadReg r s
  | .writeReg r v, s => hostWriteReg r v s
  | .readBuf i, s => hostReadBuf i s
  | .writeBuf i v, s => hostWriteBuf i v s
  | .movod, s => hostMovod s
  | .reset, s => .next s.afterReset

end Sys2Proof.Machine
end

