-- ==== Sys2Proof/Machine/Step.lean ====
section
/-! DEFINITION. One step: the next host action, or idling (20_memory.md R58, R60; 60_exceptions.md R178). -/

namespace Sys2Proof.Machine

/-- The step. The unit has no program counter and fetches nothing (10_state.md R34): its next event is the host's next
action. With none left it is idle and nothing changes (R178). -/
def step (s : State) : Host.Outcome State Fault Refusal :=
  match s.host with
  | [] => .next s
  | a :: rest => hostAct a { s with host := rest }

/-- The state in which the very next step is the host's write of the word `w` to CMD (log 3). -/
def State.withFetchWord (s : State) (nbits w : Nat) : State :=
  { s with host := .writeReg 0 (BitVec.ofNat 64 (w % 2 ^ nbits)) :: s.host }

end Sys2Proof.Machine
end

