-- ==== Sys2Proof/Machine/Assembler.lean ====
section
/-! DEFINITION. The assembler notation (30_encoding.md R79, R80): lines, the host actions they expand to, and their text. -/

namespace Sys2Proof.Machine

/-- The value of an ENCF16 line (R79): a decimal literal `± digits / 10^places`, or a pattern `b64(0x...)`. -/
inductive F16Literal where
  | decimal (neg : Bool) (digits places : Nat)
  | b64 (d : Dword)
  deriving DecidableEq, Repr

/-- A line of a program (R79, R80). -/
inductive HostLine where
  | wdin (v : Dword)
  | wcmd (w : Word)
  | rreg (r : Nat)
  | bwr (i : Nat) (v : Dword)
  | brd (i : Nat)
  | movod
  /-- `.cmd 0x...`: a CMD value with no legal decoding. -/
  | dotCmd (w : Word)
  /-- `MNEMONIC offset`: a decode, or an encode of whatever DIN holds. -/
  | command (i : Instr)
  /-- `MNEMONIC offset, value` of ENC16 or ENC32. -/
  | encodeInt (i : Instr) (v : Nat)
  /-- `MNEMONIC offset, value` of ENCF16. -/
  | encodeF16 (i : Instr) (x : F16Literal)
  | bswap16 (s d : Nat)
  | bswap32 (s d : Nat)
  deriving DecidableEq, Repr

/-- The bits of an ENCF16 value: "A decimal literal stands for RNE64 of its exact decimal value" (R79). -/
def F16Literal.bits : F16Literal → Dword
  | .decimal neg digits places => rne64 (mkRat (if neg then -(digits : Int) else (digits : Int)) (10 ^ places))
  | .b64 d => d

/-- A host's write of a command word to CMD (WCMD). -/
def issueWord (w : Word) : HostAction := .writeReg 0 (w.setWidth 64)

/-- What a line expands to (R80). -/
def HostLine.expand : HostLine → List HostAction
  | .wdin v => [.writeReg 1 v]
  | .wcmd w => [issueWord w]
  | .rreg r => [.readReg r]
  | .bwr i v => [.writeBuf i v]
  | .brd i => [.readBuf i]
  | .movod => [.movod]
  | .dotCmd w => [issueWord w]
  | .command i => [issueWord (encode i)]
  | .encodeInt i v => [.writeReg 1 (BitVec.ofNat 64 v), issueWord (encode i)]
  | .encodeF16 i x => [.writeReg 1 x.bits, issueWord (encode i)]
  | .bswap16 s d => [issueWord (encode (.dec16L s)), .movod, issueWord (encode (.enc16M d))]
  | .bswap32 s d => [issueWord (encode (.dec32L s)), .movod, issueWord (encode (.enc32M d))]

/-- What R79 and R80 allow as a line: offsets 0..65535, an integer value that fits its width, a value of the command's
kind, a register number 0..5, and `.cmd` only for a word with no legal decoding. -/
def HostLine.wellFormed : HostLine → Bool
  | .wdin _ => true
  | .wcmd _ => true
  | .rreg r => r ≤ 5
  | .bwr _ _ => true
  | .brd _ => true
  | .movod => true
  | .dotCmd w => (decode w).toOption.isNone
  | .command i => decide i.WellFormed
  | .encodeInt i v => decide i.WellFormed && isIntEncode i && decide (v < 2 ^ (8 * width i))
  | .encodeF16 i _ => decide i.WellFormed && isF16Encode i
  | .bswap16 s d => decide (s < 65536) && decide (d < 65536)
  | .bswap32 s d => decide (s < 65536) && decide (d < 65536)

/-- The mnemonics (R74), the source's call names that R79 accepts as aliases, and what they name. -/
def commandNames : List (String × String × (Nat → Instr)) :=
  [ ("ENC16.L", "encode16_LSBF", .enc16L), ("ENC16.M", "encode16_MSBF", .enc16M),
    ("ENC32.L", "encode32_LSBF", .enc32L), ("ENC32.M", "encode32_MSBF", .enc32M),
    ("DEC16.L", "decode16_LSBF", .dec16L), ("DEC16.M", "decode16_MSBF", .dec16M),
    ("DEC32.L", "decode32_LSBF", .dec32L), ("DEC32.M", "decode32_MSBF", .dec32M),
    ("ENCF16.L", "encodeFixed16_LSBF", .encf16L), ("ENCF16.M", "encodeFixed16_MSBF", .encf16M),
    ("DECF16.L", "decodeFixed16_LSBF", .decf16L), ("DECF16.M", "decodeFixed16_MSBF", .decf16M) ]

/-- The command a name stands for, a mnemonic or an alias (R79). -/
def commandNamed (name : List Char) : Option (Nat → Instr) :=
  (commandNames.find? fun row => row.1.toList == name || row.2.1.toList == name).map fun row => row.2.2

/-- The value of a digit below `base` (10 or 16). -/
def digitValue (base : Nat) (c : Char) : Option Nat :=
  let n := c.toNat
  let v :=
    if 48 ≤ n ∧ n ≤ 57 then n - 48
    else if 65 ≤ n ∧ n ≤ 70 then n - 55
    else if 97 ≤ n ∧ n ≤ 102 then n - 87
    else base
  if v < base then some v else none

/-- The number written by digits of `base`, on from `acc`. -/
def digitsValue (base : Nat) : (acc : Nat) → List Char → Option Nat
  | acc, [] => some acc
  | acc, c :: cs => (digitValue base c).bind fun v => digitsValue base (acc * base + v) cs

/-- An unsigned integer "in decimal or 0x hex" (R79). -/
def parseNat : List Char → Option Nat
  | '0' :: 'x' :: c :: cs => digitsValue 16 0 (c :: cs)
  | c :: cs => digitsValue 10 0 (c :: cs)
  | [] => none

/-- `0x` and exactly `n` hex digits (R79: the `.cmd` and `b64` forms). -/
def parseFixedHex (n : Nat) : List Char → Option Nat
  | '0' :: 'x' :: cs => if cs.length = n then digitsValue 16 0 cs else none
  | _ => none

/-- The characters before the first `c`, and those after it if there is one. -/
def splitAt (c : Char) : List Char → List Char × Option (List Char)
  | [] => ([], none)
  | x :: xs => if x = c then ([], some xs) else (x :: (splitAt c xs).1, (splitAt c xs).2)

/-- An unsigned decimal literal: digits, with or without a point and more digits. -/
def parseDecimal (neg : Bool) (cs : List Char) : Option F16Literal :=
  match splitAt '.' cs with
  | ([], _) => none
  | (whole, none) => (digitsValue 10 0 whole).map fun n => .decimal neg n 0
  | (_, some []) => none
  | (whole, some frac) =>
    (digitsValue 10 0 whole).bind fun n => (digitsValue 10 n frac).map fun m => .decimal neg m frac.length

/-- The value of an ENCF16 line (R79). -/
def parseF16Literal : List Char → Option F16Literal
  | 'b' :: '6' :: '4' :: '(' :: cs =>
    match splitAt ')' cs with
    | (hex, some []) => (parseFixedHex 16 hex).map fun n => .b64 (BitVec.ofNat 64 n)
    | _ => none
  | '-' :: cs => parseDecimal true cs
  | cs => parseDecimal false cs

/-- The words of a line: runs of characters that are no blank and no comma (log 15). -/
def lineWords : List Char → List (List Char)
  | [] => []
  | c :: cs =>
    if c = ' ' ∨ c = ',' then
      match lineWords cs with
      | [] => [[]]
      | ws => [] :: ws
    else
      match lineWords cs with
      | [] => [[c]]
      | w :: ws => (c :: w) :: ws

/-- The words of a line, the empty ones between two separators left out. -/
def lineTokens (cs : List Char) : List (List Char) := (lineWords cs).filter fun w => !w.isEmpty

/-- A line named by a command, with its operands. -/
def parseCommand (mk : Nat → Instr) : List (List Char) → Option HostLine
  | [o] => (parseNat o).map fun n => .command (mk n)
  | [o, v] =>
    (parseNat o).bind fun n =>
      if isIntEncode (mk n) then (parseNat v).map fun x => .encodeInt (mk n) x
      else if isF16Encode (mk n) then (parseF16Literal v).map fun x => .encodeF16 (mk n) x
      else none
  | _ => none

/-- A line named by a host action (R80). -/
def parseAction (name : List Char) (args : List (List Char)) : Option HostLine :=
  match args with
  | [] => if name = "MOVOD".toList then some .movod else none
  | [a] =>
    if name = "WDIN".toList then (parseNat a).bind fun n => if n < 2 ^ 64 then some (.wdin (BitVec.ofNat 64 n)) else none
    else if name = "WCMD".toList then (parseNat a).bind fun n => if n < 2 ^ 32 then some (.wcmd (BitVec.ofNat 32 n)) else none
    else if name = "RREG".toList then (parseNat a).map .rreg
    else if name = "BRD".toList then (parseNat a).map .brd
    else if name = ".cmd".toList then (parseFixedHex 8 a).map fun n => .dotCmd (BitVec.ofNat 32 n)
    else none
  | [a, b] =>
    if name = "BWR".toList then
      (parseNat a).bind fun i => (parseNat b).bind fun n => if n < 2 ^ 64 then some (.bwr i (BitVec.ofNat 64 n)) else none
    else if name = "BSWAP16".toList then (parseNat a).bind fun s => (parseNat b).map fun d => .bswap16 s d
    else if name = "BSWAP32".toList then (parseNat a).bind fun s => (parseNat b).map fun d => .bswap32 s d
    else none
  | _ => none

/-- The line a text stands for; none where it is no line, or one R79 and R80 do not allow. -/
def parseLine (text : String) : Option HostLine :=
  let line :=
    match lineTokens text.toList with
    | [] => none
    | name :: args =>
      match commandNamed name with
      | some mk => parseCommand mk args
      | none => parseAction name args
  line.filter HostLine.wellFormed

/-- The host's actions for a program, one line after another (R80). -/
def assemble (lines : List HostLine) : List HostAction := lines.flatMap HostLine.expand

end Sys2Proof.Machine
end

