-- ==== Sys2Proof/Safety.lean ====
section
/-! DEFINITION. What claims about the unit are stated in: the invariant of every state a run reaches, and the words for what a
command stores, what it depends on, and what it rejects. -/

namespace Sys2Proof.Machine

/-- A STATUS word the unit can hold (10_state.md R25, R26, R30): the reserved bits 0, a code of 0 to 3, and no flag beside
an error code. -/
def StatusLegal (w : Word) : Prop :=
  statusReserved w = 0#26 ∧ statusCode w ≤ 3#4 ∧ (statusCode w ≠ 0#4 → statusPl w = false ∧ statusFw w = false)

/-- What holds of every state the unit reaches: a legal configuration (00_scope.md R5), a buffer in its canonical form with
no byte beyond BUF_LEN (10_state.md R20), and a legal STATUS. -/
structure State.Inv (s : State) : Prop where
  cfg : s.cfg.WellFormed
  canonical : Memory.wf s.unlisted s.mem
  inside : ∀ c ∈ s.mem, c.1 < s.cfg.bufLen
  status : StatusLegal s.status

/-- Between `s` and `t` exactly the bytes from `o` on changed, and they are now `bytes`: every other byte reads as before
(20_memory.md R59). -/
def Stores (s t : State) (o : Nat) (bytes : List Byte) : Prop :=
  ∀ a, t.readByte a = if o ≤ a ∧ a < o + bytes.length then bytes.getD (a - o) 0#8 else s.readByte a

/-- `t` and `u` have the same configuration and the same `w` bytes from `o` on. Everything else may differ: any host accesses
and commands that leave those bytes alone lead from one to the other. -/
def SameRange (t u : State) (o w : Nat) : Prop :=
  u.cfg = t.cfg ∧ ∀ k, k < w → u.readByte (o + k) = t.readByte (o + k)

/-- The causes of RANGE (60_exceptions.md R161): a NaN or infinite DIN, an integer part outside int16 under INT_OVF = RANGE,
a scaled fraction of 65536 or more under FRAC_OVF = RANGE. -/
def RangeCause (c : Cfg) (d : Dword) : Prop :=
  isNaN d = true ∨ isInf d = true ∨
  (c.intOvf = .range ∧
    (integerPart c.negMode (real d) < -32768 ∨ integerPart c.negMode (real d) > 32767)) ∨
  (c.fracOvf = .range ∧ scaledFraction c (real d) ≥ 65536)

/-- A CMD value that is no command (30_encoding.md R76): `CMD[1:0] == 0b00 or CMD[15:4] != 0`. -/
def IllegalWord (w : Word) : Prop := w.extractLsb' 0 2 = 0#2 ∨ w.extractLsb' 4 12 ≠ 0#12

end Sys2Proof.Machine
end

