-- ==== Sys2Proof/Certificates/Slice0/Obligations.lean ====
section
/-! DEFINITION. The statements about the unit, each with the rule of spec/ it comes from. A statement over "every state" holds
for every configuration (00_scope.md R5 to R11), every content of the buffer and every free draw. -/

open Sys2Proof Sys2Proof.Machine

/-! ## Encoding -/

/-- Decoding an encoded command gives it back, at every operand (30_encoding.md R70, R72, R74). -/
def Obligations.DecodeOfEncodeIsIdentity : Prop :=
  ∀ i : Instr, i.WellFormed → decode (encode i) = .ok i

/-- Encoding a decoded command gives the word back: no bit of a legal word is dropped, and no two words are one command
(R70, R72, R74). -/
def Obligations.EncodeOfDecodeIsIdentity : Prop :=
  ∀ (w : Word) (i : Instr), decode w = .ok i → i.WellFormed ∧ encode i = w

/-- The opcode map (30_encoding.md R74): each CMD[15:0], with any OFFSET, is its command, of its width; and a legal command is
one of the twelve. -/
def Obligations.OpcodeMapSelectsCommands : Prop :=
  (∀ (w : Word) (i : Instr), decode w = .ok i →
    w.extractLsb' 0 16 ∈ [0x0001#16, 0x0009#16, 0x0002#16, 0x000A#16, 0x0005#16, 0x000D#16, 0x0006#16, 0x000E#16,
      0x0003#16, 0x000B#16, 0x0007#16, 0x000F#16]) ∧
  ∀ o : Half,
    decode (o ++ 0x0001#16) = .ok (.enc16L o.toNat) ∧ width (.enc16L o.toNat) = 2 ∧
    decode (o ++ 0x0009#16) = .ok (.enc16M o.toNat) ∧ width (.enc16M o.toNat) = 2 ∧
    decode (o ++ 0x0002#16) = .ok (.enc32L o.toNat) ∧ width (.enc32L o.toNat) = 4 ∧
    decode (o ++ 0x000A#16) = .ok (.enc32M o.toNat) ∧ width (.enc32M o.toNat) = 4 ∧
    decode (o ++ 0x0005#16) = .ok (.dec16L o.toNat) ∧ width (.dec16L o.toNat) = 2 ∧
    decode (o ++ 0x000D#16) = .ok (.dec16M o.toNat) ∧ width (.dec16M o.toNat) = 2 ∧
    decode (o ++ 0x0006#16) = .ok (.dec32L o.toNat) ∧ width (.dec32L o.toNat) = 4 ∧
    decode (o ++ 0x000E#16) = .ok (.dec32M o.toNat) ∧ width (.dec32M o.toNat) = 4 ∧
    decode (o ++ 0x0003#16) = .ok (.encf16L o.toNat) ∧ width (.encf16L o.toNat) = 4 ∧
    decode (o ++ 0x000B#16) = .ok (.encf16M o.toNat) ∧ width (.encf16M o.toNat) = 4 ∧
    decode (o ++ 0x0007#16) = .ok (.decf16L o.toNat) ∧ width (.decf16L o.toNat) = 4 ∧
    decode (o ++ 0x000F#16) = .ok (.decf16M o.toNat) ∧ width (.decf16M o.toNat) = 4

/-- Words of 95_test_vectors.md (V-INT-5, V-ENC-7 to V-ENC-9, V-INT-18), one of each family and some illegal. -/
def Obligations.SampleWordsDecode : Prop :=
  decode 0x00030001#32 = .ok (.enc16L 3) ∧ decode 0x00040006#32 = .ok (.dec32L 4) ∧
  decode 0x0007000B#32 = .ok (.encf16M 7) ∧ decode 0xFFFF000F#32 = .ok (.decf16M 0xFFFF) ∧
  decode 0xFFFC0002#32 = .ok (.enc32L 0xFFFC) ∧
  decode 0x0000000C#32 = .error .reservedKind ∧ decode 0xFFFF8001#32 = .error .reservedBits

/-- Which words are commands, and how many (30_encoding.md R75). -/
def Obligations.LegalWordsAreCounted : Prop :=
  (∀ w : Word, (∃ i, decode w = .ok i) ↔ w.extractLsb' 0 2 ≠ 0#2 ∧ w.extractLsb' 4 12 = 0#12) ∧
  Set.ncard {w : Word | ∃ i, decode w = .ok i} = 786432

/-! ## The step and the host port -/

/-- The step of a host's write of a command word is `exec` of the decoded command, with the word in CMD and the port's answer
beside it (10_state.md R22, 20_memory.md R58); and `withFetchWord` brings that about. -/
def Obligations.StepRunsDecodedCommand : Prop :=
  (∀ (s : State) (v : Dword) (rest : List HostAction) (i : Instr),
    s.host = .writeReg 0 v :: rest → decode (v.setWidth 32) = .ok i →
    step s = exec i { s with
      host := rest, cmd := v.setWidth 32, answer := some { data := none, herr := false } }) ∧
  (∀ (s : State) (w : Nat) (i : Instr), decodeTableWord 32 w = some i →
    step (s.withFetchWord 32 w) = exec i { s with
      cmd := BitVec.ofNat 32 w, answer := some { data := none, herr := false } })

/-- A write of an illegal word to CMD sets STATUS = 3 and nothing else (30_encoding.md R76), whatever its OFFSET. -/
def Obligations.IllegalWordSetsOnlyStatus : Prop :=
  ∀ (s : State) (v : Dword) (rest : List HostAction),
    s.host = .writeReg 0 v :: rest → IllegalWord (v.setWidth 32) →
    step s = .next { s with
      host := rest, cmd := v.setWidth 32, status := 0x00000003#32,
      answer := some { data := none, herr := false } }

/-- Register accesses with a number of 0 to 5 (10_state.md R36, R21): a read answers the register's value, zero-extended, and
changes nothing; a write of DIN sets it; a write of CMD stores the low 32 bits and executes them; writes of the other
four change nothing; HERR is 0 throughout. -/
def Obligations.RegisterAccessesAnswer : Prop :=
  ∀ (s : State) (rest : List HostAction),
    (∀ r, r ≤ 5 → s.host = .readReg r :: rest →
      step s = .next { s with
        host := rest
        answer := some
          { herr := false
            data := some
              (if r = 0 then 0#32 ++ s.cmd else if r = 1 then s.din else if r = 2 then s.dout
               else if r = 3 then 0#32 ++ s.raw else if r = 4 then 0#32 ++ s.status
               else 0#32 ++ cfgWord s.cfg) } }) ∧
    (∀ v, s.host = .writeReg 0 v :: rest →
      step s = issue { s with
        host := rest, cmd := v.extractLsb' 0 32, answer := some { data := none, herr := false } }) ∧
    (∀ v, s.host = .writeReg 1 v :: rest →
      step s = .next { s with host := rest, din := v, answer := some { data := none, herr := false } }) ∧
    (∀ r v, 2 ≤ r → r ≤ 5 → s.host = .writeReg r v :: rest →
      step s = .next { s with host := rest, answer := some { data := none, herr := false } })

/-- Buffer accesses inside the buffer (10_state.md R37): a read answers the byte, zero-extended; a write sets the byte to the
low 8 bits of the data and no other; HERR is 0. -/
def Obligations.BufferAccessesAnswer : Prop :=
  ∀ (s : State) (rest : List HostAction) (a : Nat), a < s.cfg.bufLen →
    (s.host = .readBuf a :: rest →
      step s = .next { s with
        host := rest, answer := some { data := some (0#56 ++ s.readByte a), herr := false } }) ∧
    (∀ v, s.host = .writeBuf a v :: rest →
      ∃ t, step s = .next t ∧
        t = { s with host := rest, mem := t.mem, answer := some { data := none, herr := false } } ∧
        Stores s t a [v.extractLsb' 0 8])

/-- Bad host accesses (10_state.md R38, 60_exceptions.md R168): HERR = 1, a read returns 0, and no state changes. -/
def Obligations.BadAccessesAnswerHerr : Prop :=
  ∀ (s : State) (rest : List HostAction),
    (∀ r, 5 < r → s.host = .readReg r :: rest →
      step s = .next { s with host := rest, answer := some { data := some 0#64, herr := true } }) ∧
    (∀ r v, 5 < r → s.host = .writeReg r v :: rest →
      step s = .next { s with host := rest, answer := some { data := none, herr := true } }) ∧
    (∀ a, s.cfg.bufLen ≤ a → s.host = .readBuf a :: rest →
      step s = .next { s with host := rest, answer := some { data := some 0#64, herr := true } }) ∧
    (∀ a v, s.cfg.bufLen ≤ a → s.host = .writeBuf a v :: rest →
      step s = .next { s with host := rest, answer := some { data := none, herr := true } })

/-- CFG never changes, host writes of it included, and reports the parameters in its fields (10_state.md R31). -/
def Obligations.CfgReportsConstantConfiguration : Prop :=
  (∀ s t : State, step s = .next t → t.cfg = s.cfg) ∧
  (∀ (s : State) (rest : List HostAction), s.host = .readReg 5 :: rest →
    ∃ t, step s = .next t ∧ t.answer = some { data := some (0#32 ++ cfgWord s.cfg), herr := false }) ∧
  (∀ c : Cfg, c.WellFormed →
    ((cfgWord c).extractLsb' 0 17).toNat = c.bufLen ∧
    (cfgWord c).extractLsb' 17 7 = 0#7 ∧
    ((cfgWord c).getLsbD 24 = true ↔ c.negMode = .floor) ∧
    ((cfgWord c).getLsbD 25 = true ↔ c.arith = .exact) ∧
    ((cfgWord c).getLsbD 26 = true ↔ c.intOvf = .wrap) ∧
    ((cfgWord c).getLsbD 27 = true ↔ c.fracOvf = .range) ∧
    ((cfgWord c).getLsbD 28 = true ↔ c.bufReset = .zero) ∧
    (cfgWord c).extractLsb' 29 3 = 0#3) ∧
  cfgWord { bufLen := 8 } = 0x00000008#32

/-- Reset between two accesses (70_reset_and_hazards.md R180 to R182): the registers are at their reset values, CFG is
unchanged, and each byte is 0 under BUF_RESET = ZERO and a fresh free draw under UNSPECIFIED. The host's remaining actions
stay, and the port has no answer (the model's choices, log 5 and log 8). -/
def Obligations.ResetGivesResetState : Prop :=
  ∀ (s : State) (rest : List HostAction), s.host = .reset :: rest →
    ∃ t, step s = .next t ∧
      t.cmd = 0x00000000#32 ∧ t.din = 0x0000000000000000#64 ∧ t.dout = 0x0000000000000000#64 ∧
      t.raw = 0x00000000#32 ∧ t.status = 0x00000000#32 ∧ t.cfg = s.cfg ∧ t.host = rest ∧ t.answer = none ∧
      (s.cfg.bufReset = .zero → ∀ a, t.readByte a = 0x00#8) ∧
      (s.cfg.bufReset = .unspecified → ∀ a, t.readByte a = Config.bufDraw (s.resets + 1) a)

/-- The register values of `State.reset` are those of 70_reset_and_hazards.md R181; its BUF_LEN = 8 is the model's choice
(log 1), beside the default parameters of 00_scope.md R7 to R11. -/
def Obligations.ResetStateHasSpecValues : Prop :=
  State.reset.cmd = 0x00000000#32 ∧ State.reset.din = 0x0000000000000000#64 ∧
  State.reset.dout = 0x0000000000000000#64 ∧ State.reset.raw = 0x00000000#32 ∧
  State.reset.status = 0x00000000#32 ∧
  State.reset.cfg = { bufLen := 8, negMode := .trunc, arith := .binary64, intOvf := .range, fracOvf := .wrap,
                      bufReset := .unspecified } ∧
  State.reset.mem = [] ∧ State.reset.host = []

/-- With no host action to come the unit is idle, and nothing changes (60_exceptions.md R178). -/
def Obligations.IdleStepChangesNothing : Prop :=
  ∀ s : State, s.host = [] → step s = .next s

/-- MOVOD (30_encoding.md R80): in two accesses, DIN becomes what DOUT was, and no other register or byte changes. That a
reset may not fall between its two accesses in one host list is the model's choice (log 7). -/
def Obligations.MovodCopiesDoutToDin : Prop :=
  ∀ (s : State) (rest : List HostAction), s.host = .movod :: rest →
    ∃ u, step s = .next u ∧ u.host = .writeReg 1 s.dout :: rest ∧
      step u = .next { s with
        host := rest, din := s.dout, answer := some { data := none, herr := false } }

/-- The composites of 30_encoding.md R80 on ranges inside the buffer: after the four accesses of BSWAP16 (BSWAP32), the bytes at
`d` are the bytes that were at `a`, in reverse order, every byte outside that range reads as before, and STATUS is OK. -/
def Obligations.CompositesReverseBytes : Prop :=
  ∀ (s : State) (rest : List HostAction) (a d : Nat), a < 65536 → d < 65536 →
    (s.host = (HostLine.bswap16 a d).expand ++ rest → a + 2 ≤ s.cfg.bufLen → d + 2 ≤ s.cfg.bufLen →
      ∃ t, Host.Core.run Sys2Proof.core 4 s = .next t ∧ t.host = rest ∧ t.status = 0#32 ∧
        Stores s t d [s.readByte (a + 1), s.readByte a]) ∧
    (s.host = (HostLine.bswap32 a d).expand ++ rest → a + 4 ≤ s.cfg.bufLen → d + 4 ≤ s.cfg.bufLen →
      ∃ t, Host.Core.run Sys2Proof.core 4 s = .next t ∧ t.host = rest ∧ t.status = 0#32 ∧
        Stores s t d [s.readByte (a + 3), s.readByte (a + 2), s.readByte (a + 1), s.readByte a])

/-- An encode line with a value (30_encoding.md R80): DIN takes the value, zero-extended, or the pattern of the F16 literal,
and then the command word is issued. -/
def Obligations.EncodeLineWritesDinThenIssues : Prop :=
  ∀ (s : State) (rest : List HostAction) (i : Instr), i.WellFormed →
    (∀ v, isIntEncode i = true → v < 2 ^ (8 * width i) → s.host = (HostLine.encodeInt i v).expand ++ rest →
      ∃ u, step s = .next u ∧ step u = exec i { s with
        host := rest, din := BitVec.ofNat 64 v, cmd := encode i, answer := some { data := none, herr := false } }) ∧
    (∀ x, isF16Encode i = true → s.host = (HostLine.encodeF16 i x).expand ++ rest →
      ∃ u, step s = .next u ∧ step u = exec i { s with
        host := rest, din := x.bits, cmd := encode i, answer := some { data := none, herr := false } })

/-! ## Errors -/

/-- Every command and every step completes: nothing stops the unit (60_exceptions.md R160). -/
def Obligations.EveryStepCompletes : Prop :=
  (∀ (i : Instr) (s : State), ∃ t, exec i s = .next t) ∧ ∀ s : State, ∃ t, step s = .next t

/-- The bounds check (20_memory.md R52): a command whose range is not inside the buffer sets STATUS = 1 and nothing else; with
BUF_LEN < 2 that is every command. -/
def Obligations.OutOfBoundsSetsOnlyStatus : Prop :=
  (∀ (i : Instr) (s : State), i.offset + width i > s.cfg.bufLen →
    exec i s = .next { s with status := 0x00000001#32 }) ∧
  (∀ (i : Instr) (s : State), s.cfg.bufLen < 2 → exec i s = .next { s with status := 0x00000001#32 })

/-- A command that ends with CODE ≠ 0 writes STATUS = zext_32(CODE) and nothing else (60_exceptions.md R163). -/
def Obligations.FailingCommandWritesOnlyStatus : Prop :=
  ∀ s t : State, issue s = .next t → statusCode t.status ≠ 0#4 →
    t = { s with status := (statusCode t.status).setWidth 32 }

/-- The code of a command and the order in which errors win: ILLEGAL, OOB, RANGE (60_exceptions.md R161, R165). -/
def Obligations.CodesFollowPriority : Prop :=
  ∀ s t : State, issue s = .next t →
    (IllegalWord s.cmd → statusCode t.status = 3#4) ∧
    (∀ i, decode s.cmd = .ok i →
      (i.offset + width i > s.cfg.bufLen → statusCode t.status = 1#4) ∧
      (i.offset + width i ≤ s.cfg.bufLen → isF16Encode i = true → RangeCause s.cfg s.din →
        statusCode t.status = 2#4) ∧
      (i.offset + width i ≤ s.cfg.bufLen → ¬ (isF16Encode i = true ∧ RangeCause s.cfg s.din) →
        statusCode t.status = 0#4))

/-- After every command: STATUS[31:6] = 0, CODE is 0 to 3, and PL = FW = 0 unless the command was an ENCF16 that completed with
CODE = 0 (10_state.md R30). -/
def Obligations.StatusAfterEveryCommand : Prop :=
  ∀ s t : State, issue s = .next t →
    statusReserved t.status = 0#26 ∧
    (statusCode t.status = 0#4 ∨ statusCode t.status = 1#4 ∨ statusCode t.status = 2#4 ∨ statusCode t.status = 3#4) ∧
    (statusPl t.status = true ∨ statusFw t.status = true →
      statusCode t.status = 0#4 ∧ ∃ o, decode s.cmd = .ok (.encf16L o) ∨ decode s.cmd = .ok (.encf16M o))

/-! ## The byte-order converter -/

/-- ENC16.L and ENC16.M (40_byte_order.md R100, R101): their words; inside the buffer the two bytes of DIN[15:0] in their order
and STATUS = 0; outside it STATUS = 1 and nothing else. -/
def Obligations.Enc16StoresDinHalf : Prop :=
  ∀ (o : Nat) (s : State),
    encode (.enc16L o) = BitVec.ofNat 16 o ++ 0x0001#16 ∧
    encode (.enc16M o) = BitVec.ofNat 16 o ++ 0x0009#16 ∧
    (o + 2 ≤ s.cfg.bufLen → ∃ t, exec (.enc16L o) s = .next t ∧
      t = { s with mem := t.mem, status := 0x00000000#32 } ∧
      Stores s t o [s.din.extractLsb' 0 8, s.din.extractLsb' 8 8]) ∧
    (o + 2 ≤ s.cfg.bufLen → ∃ t, exec (.enc16M o) s = .next t ∧
      t = { s with mem := t.mem, status := 0x00000000#32 } ∧
      Stores s t o [s.din.extractLsb' 8 8, s.din.extractLsb' 0 8]) ∧
    (s.cfg.bufLen < o + 2 →
      exec (.enc16L o) s = .next { s with status := 0x00000001#32 } ∧
      exec (.enc16M o) s = .next { s with status := 0x00000001#32 })

/-- ENC32.L and ENC32.M (40_byte_order.md R102, R103). -/
def Obligations.Enc32StoresDinWord : Prop :=
  ∀ (o : Nat) (s : State),
    encode (.enc32L o) = BitVec.ofNat 16 o ++ 0x0002#16 ∧
    encode (.enc32M o) = BitVec.ofNat 16 o ++ 0x000A#16 ∧
    (o + 4 ≤ s.cfg.bufLen → ∃ t, exec (.enc32L o) s = .next t ∧
      t = { s with mem := t.mem, status := 0x00000000#32 } ∧
      Stores s t o
        [s.din.extractLsb' 0 8, s.din.extractLsb' 8 8, s.din.extractLsb' 16 8, s.din.extractLsb' 24 8]) ∧
    (o + 4 ≤ s.cfg.bufLen → ∃ t, exec (.enc32M o) s = .next t ∧
      t = { s with mem := t.mem, status := 0x00000000#32 } ∧
      Stores s t o
        [s.din.extractLsb' 24 8, s.din.extractLsb' 16 8, s.din.extractLsb' 8 8, s.din.extractLsb' 0 8]) ∧
    (s.cfg.bufLen < o + 4 →
      exec (.enc32L o) s = .next { s with status := 0x00000001#32 } ∧
      exec (.enc32M o) s = .next { s with status := 0x00000001#32 })

/-- DEC16.L and DEC16.M (40_byte_order.md R104, R105): DOUT is the two bytes in their order, zero-extended, STATUS = 0, and
nothing else changes, no byte of the buffer in particular. -/
def Obligations.Dec16LoadsDout : Prop :=
  ∀ (o : Nat) (s : State),
    encode (.dec16L o) = BitVec.ofNat 16 o ++ 0x0005#16 ∧
    encode (.dec16M o) = BitVec.ofNat 16 o ++ 0x000D#16 ∧
    (o + 2 ≤ s.cfg.bufLen →
      exec (.dec16L o) s = .next { s with
        dout := 0#48 ++ s.readByte (o + 1) ++ s.readByte o, status := 0x00000000#32 } ∧
      exec (.dec16M o) s = .next { s with
        dout := 0#48 ++ s.readByte o ++ s.readByte (o + 1), status := 0x00000000#32 }) ∧
    (s.cfg.bufLen < o + 2 →
      exec (.dec16L o) s = .next { s with status := 0x00000001#32 } ∧
      exec (.dec16M o) s = .next { s with status := 0x00000001#32 })

/-- DEC32.L and DEC32.M (40_byte_order.md R106, R107). -/
def Obligations.Dec32LoadsDout : Prop :=
  ∀ (o : Nat) (s : State),
    encode (.dec32L o) = BitVec.ofNat 16 o ++ 0x0006#16 ∧
    encode (.dec32M o) = BitVec.ofNat 16 o ++ 0x000E#16 ∧
    (o + 4 ≤ s.cfg.bufLen →
      exec (.dec32L o) s = .next { s with
        dout := 0#32 ++ s.readByte (o + 3) ++ s.readByte (o + 2) ++ s.readByte (o + 1) ++ s.readByte o
        status := 0x00000000#32 } ∧
      exec (.dec32M o) s = .next { s with
        dout := 0#32 ++ s.readByte o ++ s.readByte (o + 1) ++ s.readByte (o + 2) ++ s.readByte (o + 3)
        status := 0x00000000#32 }) ∧
    (s.cfg.bufLen < o + 4 →
      exec (.dec32L o) s = .next { s with status := 0x00000001#32 } ∧
      exec (.dec32M o) s = .next { s with status := 0x00000001#32 })

/-- The integer round trip (40_byte_order.md R109): an encode in bounds, then, in any state with the same configuration and the
same bytes in that range, the decode of the same width and order gives the value back, with STATUS = 0. -/
def Obligations.IntegerRoundTrip : Prop :=
  ∀ (o : Nat) (s : State),
    (o + 2 ≤ s.cfg.bufLen →
      (∃ t, exec (.enc16L o) s = .next t ∧ ∀ u, SameRange t u o 2 →
        ∃ x, exec (.dec16L o) u = .next x ∧ x.dout = (s.din.extractLsb' 0 16).setWidth 64 ∧ x.status = 0#32) ∧
      (∃ t, exec (.enc16M o) s = .next t ∧ ∀ u, SameRange t u o 2 →
        ∃ x, exec (.dec16M o) u = .next x ∧ x.dout = (s.din.extractLsb' 0 16).setWidth 64 ∧ x.status = 0#32)) ∧
    (o + 4 ≤ s.cfg.bufLen →
      (∃ t, exec (.enc32L o) s = .next t ∧ ∀ u, SameRange t u o 4 →
        ∃ x, exec (.dec32L o) u = .next x ∧ x.dout = (s.din.extractLsb' 0 32).setWidth 64 ∧ x.status = 0#32) ∧
      (∃ t, exec (.enc32M o) s = .next t ∧ ∀ u, SameRange t u o 4 →
        ∃ x, exec (.dec32M o) u = .next x ∧ x.dout = (s.din.extractLsb' 0 32).setWidth 64 ∧ x.status = 0#32))

/-- The order relation (40_byte_order.md R110): the MSBF encode writes the bytes of the LSBF encode in reverse order; the two
sequences are equal exactly when that sequence is a palindrome; and a decode in the other order of an encode's bytes
gives the byte swap of the value. -/
def Obligations.OrdersAreMirrored : Prop :=
  ∀ (o : Nat) (s : State),
    (o + 2 ≤ s.cfg.bufLen → ∃ tl tm, exec (.enc16L o) s = .next tl ∧ exec (.enc16M o) s = .next tm ∧
      (∀ k, k < 2 → tm.readByte (o + k) = tl.readByte (o + (1 - k))) ∧
      ((∀ k, k < 2 → tm.readByte (o + k) = tl.readByte (o + k)) ↔
        ∀ k, k < 2 → tl.readByte (o + k) = tl.readByte (o + (1 - k))) ∧
      (∀ u, SameRange tl u o 2 → ∃ x, exec (.dec16M o) u = .next x ∧
        x.dout = 0#48 ++ s.din.extractLsb' 0 8 ++ s.din.extractLsb' 8 8) ∧
      (∀ u, SameRange tm u o 2 → ∃ x, exec (.dec16L o) u = .next x ∧
        x.dout = 0#48 ++ s.din.extractLsb' 0 8 ++ s.din.extractLsb' 8 8)) ∧
    (o + 4 ≤ s.cfg.bufLen → ∃ tl tm, exec (.enc32L o) s = .next tl ∧ exec (.enc32M o) s = .next tm ∧
      (∀ k, k < 4 → tm.readByte (o + k) = tl.readByte (o + (3 - k))) ∧
      ((∀ k, k < 4 → tm.readByte (o + k) = tl.readByte (o + k)) ↔
        ∀ k, k < 4 → tl.readByte (o + k) = tl.readByte (o + (3 - k))) ∧
      (∀ u, SameRange tl u o 4 → ∃ x, exec (.dec32M o) u = .next x ∧
        x.dout = 0#32 ++ s.din.extractLsb' 0 8 ++ s.din.extractLsb' 8 8
          ++ s.din.extractLsb' 16 8 ++ s.din.extractLsb' 24 8) ∧
      (∀ u, SameRange tm u o 4 → ∃ x, exec (.dec32L o) u = .next x ∧
        x.dout = 0#32 ++ s.din.extractLsb' 0 8 ++ s.din.extractLsb' 8 8
          ++ s.din.extractLsb' 16 8 ++ s.din.extractLsb' 24 8))

/-! ## The F16 commands -/

/-- ENCF16.L and ENCF16.M (41_fixed_point.md R140, R141): their words; outside the buffer STATUS = 1, whatever DIN holds; inside
it, STATUS = 2 and nothing else where F16Split returns RANGE, and otherwise IP then SF, each in its order, RAW = {IP, SF},
and STATUS = {26'b0, fw, pl, 4'b0000}. -/
def Obligations.Encf16StoresFields : Prop :=
  ∀ (o : Nat) (s : State),
    encode (.encf16L o) = BitVec.ofNat 16 o ++ 0x0003#16 ∧
    encode (.encf16M o) = BitVec.ofNat 16 o ++ 0x000B#16 ∧
    (s.cfg.bufLen < o + 4 →
      exec (.encf16L o) s = .next { s with status := 0x00000001#32 } ∧
      exec (.encf16M o) s = .next { s with status := 0x00000001#32 }) ∧
    (o + 4 ≤ s.cfg.bufLen → f16Split s.cfg s.din = none →
      exec (.encf16L o) s = .next { s with status := 0x00000002#32 } ∧
      exec (.encf16M o) s = .next { s with status := 0x00000002#32 }) ∧
    (∀ r, o + 4 ≤ s.cfg.bufLen → f16Split s.cfg s.din = some r →
      (∃ t, exec (.encf16L o) s = .next t ∧
        t = { s with
          mem := t.mem, raw := r.ip ++ r.sf
          status := 0#26 ++ BitVec.ofBool r.fw ++ BitVec.ofBool r.pl ++ 0#4 } ∧
        Stores s t o [r.ip.extractLsb' 0 8, r.ip.extractLsb' 8 8, r.sf.extractLsb' 0 8, r.sf.extractLsb' 8 8]) ∧
      (∃ t, exec (.encf16M o) s = .next t ∧
        t = { s with
          mem := t.mem, raw := r.ip ++ r.sf
          status := 0#26 ++ BitVec.ofBool r.fw ++ BitVec.ofBool r.pl ++ 0#4 } ∧
        Stores s t o [r.ip.extractLsb' 8 8, r.ip.extractLsb' 0 8, r.sf.extractLsb' 8 8, r.sf.extractLsb' 0 8]))

/-- Where ENCF16 succeeds, in terms of DIN and the configuration alone, and what it leaves (41_fixed_point.md R131, R140,
R141; 10_state.md R27 to R29): in bounds and with no cause of RANGE, RAW holds the low 16 bits of the integer part and of the
scaled fraction, PL says that the stored F16 does not stand for exactly the input, FW that the scaled fraction did not fit,
CODE = 0, and DOUT and DIN are unchanged. -/
def Obligations.Encf16CompletesWithoutRangeCause : Prop :=
  ∀ (o : Nat) (s : State), o + 4 ≤ s.cfg.bufLen → ¬ RangeCause s.cfg s.din →
    ∀ i, i = .encf16L o ∨ i = .encf16M o →
    ∃ t, exec i s = .next t ∧
      t.raw = BitVec.ofInt 16 (integerPart s.cfg.negMode (real s.din)) ++
        BitVec.ofInt 16 (scaledFraction s.cfg (real s.din)) ∧
      (statusPl t.status = true ↔
        real s.din ≠ ((t.raw.extractLsb' 16 16).toInt : ℚ) + ((t.raw.extractLsb' 0 16).toNat : ℚ) / 100000) ∧
      (statusFw t.status = true ↔ scaledFraction s.cfg (real s.din) ≥ 65536) ∧
      statusCode t.status = 0#4 ∧ t.dout = s.dout ∧ t.din = s.din

/-- DECF16.L and DECF16.M (41_fixed_point.md R142, R143): IP and SF from the four bytes, DOUT = F16Join(IP, SF),
RAW = {IP, SF}, STATUS = 0, nothing else; outside the buffer STATUS = 1 and nothing else. -/
def Obligations.Decf16JoinsFields : Prop :=
  ∀ (o : Nat) (s : State),
    encode (.decf16L o) = BitVec.ofNat 16 o ++ 0x0007#16 ∧
    encode (.decf16M o) = BitVec.ofNat 16 o ++ 0x000F#16 ∧
    (o + 4 ≤ s.cfg.bufLen →
      exec (.decf16L o) s = .next { s with
        dout := f16Join s.cfg.arith (s.readByte (o + 1) ++ s.readByte o) (s.readByte (o + 3) ++ s.readByte (o + 2))
        raw := s.readByte (o + 1) ++ s.readByte o ++ s.readByte (o + 3) ++ s.readByte (o + 2)
        status := 0x00000000#32 } ∧
      exec (.decf16M o) s = .next { s with
        dout := f16Join s.cfg.arith (s.readByte o ++ s.readByte (o + 1)) (s.readByte (o + 2) ++ s.readByte (o + 3))
        raw := s.readByte o ++ s.readByte (o + 1) ++ s.readByte (o + 2) ++ s.readByte (o + 3)
        status := 0x00000000#32 }) ∧
    (s.cfg.bufLen < o + 4 →
      exec (.decf16L o) s = .next { s with status := 0x00000001#32 } ∧
      exec (.decf16M o) s = .next { s with status := 0x00000001#32 })

/-- The MSBF layout of an F16 is that of ENC32.M of the 32-bit value {IP, SF} (41_fixed_point.md R130): with that value in DIN,
ENC32.M leaves every byte as ENCF16.M left it. -/
def Obligations.Encf16MBytesAreEnc32M : Prop :=
  ∀ (o : Nat) (s : State) (r : F16Fields), o + 4 ≤ s.cfg.bufLen → f16Split s.cfg s.din = some r →
    ∃ t u, exec (.encf16M o) s = .next t ∧
      exec (.enc32M o) { s with din := 0#32 ++ r.ip ++ r.sf } = .next u ∧ ∀ a, u.readByte a = t.readByte a

/-- Integral inputs (41_fixed_point.md R145): for an integer X in -32768..32767, under any setting, ENCF16 gives IP = u16(X),
SF = 0 and PL = 0, and DECF16 of that gives exactly X; for X = 0, +0 whatever the sign of the input. -/
def Obligations.IntegralInputsAreExact : Prop :=
  ∀ (o : Nat) (s : State) (x : Int), o + 4 ≤ s.cfg.bufLen → isFinite s.din = true →
    real s.din = (x : ℚ) → -32768 ≤ x → x ≤ 32767 →
    ∀ enc dec, (enc = .encf16L o ∧ dec = .decf16L o) ∨ (enc = .encf16M o ∧ dec = .decf16M o) →
    ∃ t, exec enc s = .next t ∧ t.raw = BitVec.ofInt 16 x ++ 0#16 ∧ t.status = 0x00000000#32 ∧
      ∀ u, SameRange t u o 4 → ∃ y, exec dec u = .next y ∧ isFinite y.dout = true ∧ real y.dout = (x : ℚ) ∧
        (x = 0 → y.dout = 0x0000000000000000#64)

/-- The fixed-point round trip (41_fixed_point.md R144): any parameter setting, any finite input with 0 <= real(d) < 32768 and a
fraction below 0.65536. -/
def Obligations.FixedPointRoundTrip : Prop :=
  ∀ (o : Nat) (s : State), o + 4 ≤ s.cfg.bufLen → isFinite s.din = true →
    0 ≤ real s.din → real s.din < 32768 → real s.din - (truncRat (real s.din) : ℚ) < 65536 / 100000 →
    ∀ enc dec, (enc = .encf16L o ∧ dec = .decf16L o) ∨ (enc = .encf16M o ∧ dec = .decf16M o) →
    ∃ t, exec enc s = .next t ∧ (t.status = 0x00000010#32 ∨ t.status = 0x00000000#32) ∧
      (s.cfg.arith = .exact →
        real s.din - 1 / 100000 < f16Value (t.raw.extractLsb' 16 16) (t.raw.extractLsb' 0 16) ∧
        f16Value (t.raw.extractLsb' 16 16) (t.raw.extractLsb' 0 16) ≤ real s.din) ∧
      ∀ u, SameRange t u o 4 → ∃ y, exec dec u = .next y ∧
        |real y.dout - real s.din| < 1 / 100000 + 1 / 2 ^ 30

/-! ## The scaler and its arithmetic -/

/-- RNE64 (00_scope.md R14): for |q| < 2^1023 the pattern is finite, no finite pattern is nearer to q, of two different nearest
values it has the even significand, and it is +0 for 0. -/
def Obligations.RoundingIsNearestEven : Prop :=
  rne64 0 = 0x0000000000000000#64 ∧
  ∀ q : ℚ, |q| < 2 ^ 1023 →
    isFinite (rne64 q) = true ∧
    (∀ d, isFinite d = true → |real (rne64 q) - q| ≤ |real d - q|) ∧
    (∀ d, isFinite d = true → |real d - q| = |real (rne64 q) - q| → real d ≠ real (rne64 q) →
      (rne64 q).getLsbD 0 = false)

/-- The range facts of 41_fixed_point.md R131 for a finite input: the fraction lies in [0, 1), or in (-1, 0] under TRUNC of a
negative input; the scaled product lies in [-100000, 100000]; m lies in 0..99999. -/
def Obligations.ScalerStaysInRange : Prop :=
  ∀ (c : Cfg) (d : Dword), isFinite d = true →
    (c.negMode = .floor ∨ 0 ≤ real d →
      0 ≤ real d - (integerPart c.negMode (real d) : ℚ) ∧ real d - (integerPart c.negMode (real d) : ℚ) < 1) ∧
    (c.negMode = .trunc → real d < 0 →
      -1 < real d - (integerPart c.negMode (real d) : ℚ) ∧ real d - (integerPart c.negMode (real d) : ℚ) ≤ 0) ∧
    |scaledProduct c.arith (real d - (integerPart c.negMode (real d) : ℚ))| ≤ 100000 ∧
    0 ≤ scaledFraction c (real d) ∧ scaledFraction c (real d) ≤ 99999

/-- Under TRUNC the fraction of a finite input is exactly a binary64 value: the inner RNE64 is the identity on it
(41_fixed_point.md R132). -/
def Obligations.TruncFractionIsExact : Prop :=
  ∀ d : Dword, isFinite d = true →
    real (rne64 (real d - (truncRat (real d) : ℚ))) = real d - (truncRat (real d) : ℚ)

/-- The documented defect (41_fixed_point.md R133): under TRUNC every negative non-integral input that F16Split accepts, one
whose integer part INT_OVF = WRAP wraps included, is stored as a value that is not below its integer part, so not the input,
and PL = 1. (R133 says "greater"; by R131 it can be equal, log 10.) -/
def Obligations.NegativeTruncIsNotTheInput : Prop :=
  ∀ (c : Cfg) (d : Dword) (r : F16Fields), c.negMode = .trunc → real d < 0 →
    real d ≠ (truncRat (real d) : ℚ) → f16Split c d = some r →
    (truncRat (real d) : ℚ) ≤ f16Value r.ip r.sf ∧ real d < f16Value r.ip r.sf ∧ r.pl = true

/-- FW = 1 always comes with PL = 1 (10_state.md R28). -/
def Obligations.FractionWrapImpliesLoss : Prop :=
  ∀ (c : Cfg) (d : Dword) (r : F16Fields), f16Split c d = some r → r.fw = true → r.pl = true

/-- Decode has no error of its own (41_fixed_point.md R134): for every pair of patterns and either ARITH the result is finite,
never -0, at least -32768 and at most the largest result of V-F16D-3. (R134's bound 32767.65535 is that pattern's decimal
name, not its exact value, log 11.) -/
def Obligations.JoinIsFiniteAndBounded : Prop :=
  ∀ (a : Arith) (ip sf : Half),
    isFinite (f16Join a ip sf) = true ∧ f16Join a ip sf ≠ 0x8000000000000000#64 ∧
    -32768 ≤ real (f16Join a ip sf) ∧ real (f16Join a ip sf) ≤ real 0x40DFFFE9F141205C#64

/-- Decode then encode is not the identity (41_fixed_point.md R146): (0x0000, 65535) decodes under either ARITH to
0x3FE4F8A0902DE00D, which encodes to SF = 65535 under BINARY64 and to 65534 under EXACT. -/
def Obligations.DecodeThenEncodeCanLoseAUnit : Prop :=
  (∀ a, f16Join a 0x0000#16 65535#16 = 0x3FE4F8A0902DE00D#64) ∧
  (f16Split { bufLen := 8, arith := .binary64 } 0x3FE4F8A0902DE00D#64).map (·.sf) = some 65535#16 ∧
  (f16Split { bufLen := 8, arith := .exact } 0x3FE4F8A0902DE00D#64).map (·.sf) = some 65534#16

/-! ## Whole-machine rules -/

/-- The frame of every command (20_memory.md R59; 10_state.md R22 to R24, R29): CMD, DIN and CFG never change, DOUT only in a
decode and RAW only in an F16 command that ends with CODE = 0, and no byte outside the range of an encode. -/
def Obligations.CommandsKeepTheirFrame : Prop :=
  ∀ (i : Instr) (s t : State), exec i s = .next t →
    t.cmd = s.cmd ∧ t.din = s.din ∧ t.cfg = s.cfg ∧ t.host = s.host ∧ t.answer = s.answer ∧ t.resets = s.resets ∧
    (isDecode i = false ∨ statusCode t.status ≠ 0#4 → t.dout = s.dout) ∧
    (isF16 i = false ∨ statusCode t.status ≠ 0#4 → t.raw = s.raw) ∧
    (∀ a, isDecode i = true ∨ statusCode t.status ≠ 0#4 ∨ a < i.offset ∨ i.offset + width i ≤ a →
      t.readByte a = s.readByte a)

/-- A command's result is a function of CMD, DIN, the bytes it reads and CFG alone (10_state.md R35). Only a decode inside the
buffer reads bytes, those of its range. Two states that agree on these, whatever else they hold, end with the same STATUS;
where the command completes, with the same bytes in the range and, where it wrote them, the same DOUT and RAW; where it fails,
with DOUT, RAW and every byte of each as they were. -/
def Obligations.ResultDependsOnlyOnInputs : Prop :=
  ∀ s₁ s₂ : State, s₂.cmd = s₁.cmd → s₂.din = s₁.din → s₂.cfg = s₁.cfg →
    (∀ i, decode s₁.cmd = .ok i → isDecode i = true → i.offset + width i ≤ s₁.cfg.bufLen →
      SameRange s₁ s₂ i.offset (width i)) →
    ∃ t₁ t₂, issue s₁ = .next t₁ ∧ issue s₂ = .next t₂ ∧ t₂.status = t₁.status ∧
      (statusCode t₁.status ≠ 0#4 →
        t₁.dout = s₁.dout ∧ t₁.raw = s₁.raw ∧ t₂.dout = s₂.dout ∧ t₂.raw = s₂.raw ∧
        ∀ a, t₁.readByte a = s₁.readByte a ∧ t₂.readByte a = s₂.readByte a) ∧
      ∀ i, decode s₁.cmd = .ok i → statusCode t₁.status = 0#4 →
        SameRange t₁ t₂ i.offset (width i) ∧
        (isDecode i = true → t₂.dout = t₁.dout) ∧
        (isF16 i = true → t₂.raw = t₁.raw)

/-- Re-running a command whose inputs have not changed changes nothing more (20_memory.md R61, 60_exceptions.md R164): from
every state that meets the invariant, the command run again answers the same state. -/
def Obligations.RerunningACommandIsIdempotent : Prop :=
  ∀ (i : Instr) (s t : State), s.Inv → exec i s = .next t → exec i t = .next t

/-- The invariant holds after reset. -/
def Obligations.ResetMeetsTheInvariant : Prop := State.reset.Inv

/-- Every step keeps the invariant: the configuration stays legal, the buffer stays in its canonical form inside BUF_LEN, and
STATUS stays a legal word (00_scope.md R5, 10_state.md R20, R25, R30). -/
def Obligations.EveryStepKeepsTheInvariant : Prop :=
  ∀ s t : State, s.Inv → step s = .next t → t.Inv
end

