-- ==== Sys2Proof/Laws/Binary64.lean ====
section
/-! SUPPORT. What the binary64 primitives compute, in exact rationals: the value of a pattern, and the pattern that RNE64
chooses (00_scope.md R14). -/

namespace Sys2Proof.Machine

/-- A rounded quotient is within half a unit, and even where it is exactly half a unit away. -/
theorem roundHalfEven_spec (n : Nat) {d : Nat} (hd : 0 < d) :
    |(n : ℚ) / d - roundHalfEven n d| ≤ 1 / 2 ∧
      (|(n : ℚ) / d - roundHalfEven n d| = 1 / 2 → roundHalfEven n d % 2 = 0) := by
  have hdq : (0 : ℚ) < d := by exact_mod_cast hd
  have hm := Nat.mod_lt n hd
  have key : 2 * n ≤ 2 * (roundHalfEven n d * d) + d ∧ 2 * (roundHalfEven n d * d) ≤ 2 * n + d ∧
      (2 * n = 2 * (roundHalfEven n d * d) + d ∨ 2 * (roundHalfEven n d * d) = 2 * n + d →
        roundHalfEven n d % 2 = 0) := by
    have hn : d * (n / d) + n % d = n := Nat.div_add_mod n d
    unfold roundHalfEven
    generalize n / d = q at *
    generalize n % d = m at *
    have e : (q + 1) * d = d * q + d := by ring
    have e' : q * d = d * q := Nat.mul_comm ..
    split_ifs <;> (try rw [e]) <;> (try rw [e']) <;> generalize d * q = p at * <;> omega
  obtain ⟨h1, h2, h3⟩ := key
  generalize roundHalfEven n d = r at *
  have h1q : 2 * (n : ℚ) ≤ 2 * (r * d) + d := by exact_mod_cast h1
  have h2q : 2 * ((r : ℚ) * d) ≤ 2 * n + d := by exact_mod_cast h2
  have hx : (n : ℚ) / d * d = n := by field_simp
  refine ⟨abs_le.2 ⟨?_, ?_⟩, fun he => h3 ?_⟩
  · by_contra hlt
    nlinarith
  · by_contra hlt
    nlinarith
  · rcases abs_eq (by norm_num : (0 : ℚ) ≤ 1 / 2) |>.1 he with he | he
    · left
      have : 2 * (n : ℚ) = 2 * (r * d) + d := by
        have : (n : ℚ) / d = r + 1 / 2 := by linarith
        rw [this] at hx; linarith
      exact_mod_cast this
    · right
      have : 2 * ((r : ℚ) * d) = 2 * n + d := by
        have : (n : ℚ) / d = r - 1 / 2 := by linarith
        rw [this] at hx; linarith
      exact_mod_cast this

/-- The leading bit of a positive quotient. -/
theorem floorLog_spec {n d : Nat} (hn : 0 < n) (hd : 0 < d) :
    (2 : ℚ) ^ floorLog n d ≤ n / d ∧ (n : ℚ) / d < 2 ^ (floorLog n d + 1) := by
  have hdq : (0 : ℚ) < d := by exact_mod_cast hd
  have n1 : (2 : ℚ) ^ (Nat.log2 n : ℤ) ≤ n := by
    rw [zpow_natCast]; exact_mod_cast Nat.log2_self_le hn.ne'
  have n2 : (n : ℚ) < 2 ^ ((Nat.log2 n : ℤ) + 1) := by
    have : n < 2 ^ (Nat.log2 n + 1) := Nat.lt_log2_self
    exact_mod_cast this
  have d1 : (2 : ℚ) ^ (Nat.log2 d : ℤ) ≤ d := by
    rw [zpow_natCast]; exact_mod_cast Nat.log2_self_le hd.ne'
  have d2 : (d : ℚ) < 2 ^ ((Nat.log2 d : ℤ) + 1) := by
    have : d < 2 ^ (Nat.log2 d + 1) := Nat.lt_log2_self
    exact_mod_cast this
  have up : (n : ℚ) / d < 2 ^ ((Nat.log2 n : ℤ) - Nat.log2 d + 1) := by
    rw [div_lt_iff₀ hdq]
    calc (n : ℚ) < 2 ^ ((Nat.log2 n : ℤ) + 1) := n2
      _ = 2 ^ ((Nat.log2 n : ℤ) - Nat.log2 d + 1) * 2 ^ (Nat.log2 d : ℤ) := by
        rw [← zpow_add₀ two_ne_zero]; congr 1; ring
      _ ≤ _ := by gcongr
  have low : (2 : ℚ) ^ ((Nat.log2 n : ℤ) - Nat.log2 d - 1) ≤ n / d := by
    rw [le_div_iff₀ hdq]
    calc (2 : ℚ) ^ ((Nat.log2 n : ℤ) - Nat.log2 d - 1) * d
        ≤ 2 ^ ((Nat.log2 n : ℤ) - Nat.log2 d - 1) * 2 ^ ((Nat.log2 d : ℤ) + 1) := by gcongr
      _ = 2 ^ (Nat.log2 n : ℤ) := by rw [← zpow_add₀ two_ne_zero]; congr 1; ring
      _ ≤ n := n1
  have fits : ∀ e : Int,
      ((if 0 ≤ e then decide (d * 2 ^ e.toNat ≤ n) else decide (d ≤ n * 2 ^ (-e).toNat)) = true ↔
        (2 : ℚ) ^ e ≤ n / d) := by
    intro e
    rw [le_div_iff₀ hdq]
    by_cases he : 0 ≤ e
    · rw [if_pos he, decide_eq_true_iff]
      obtain ⟨k, rfl⟩ := Int.eq_ofNat_of_zero_le he
      rw [zpow_natCast, Int.toNat_natCast, mul_comm]
      exact_mod_cast Iff.rfl
    · rw [if_neg he, decide_eq_true_iff]
      obtain ⟨k, hk⟩ := Int.eq_ofNat_of_zero_le (show 0 ≤ -e by omega)
      obtain rfl : e = -(k : ℤ) := by omega
      rw [zpow_neg, zpow_natCast, neg_neg, Int.toNat_natCast, inv_mul_le_iff₀ (by positivity), mul_comm]
      exact_mod_cast Iff.rfl
  unfold floorLog
  simp only
  by_cases hf : (2 : ℚ) ^ ((Nat.log2 n : ℤ) - Nat.log2 d) ≤ n / d
  · rw [if_pos ((fits _).2 hf)]
    exact ⟨hf, up⟩
  · rw [if_neg (fun h => hf ((fits _).1 h))]
    refine ⟨low, ?_⟩
    rw [sub_add_cancel]
    exact not_le.1 hf

/-- A quotient rounded to units of 2^u. -/
theorem roundedUnits_spec (n : Nat) {d : Nat} (hd : 0 < d) (u : Int) :
    |(n : ℚ) / d / 2 ^ u - roundedUnits n d u| ≤ 1 / 2 ∧
      (|(n : ℚ) / d / 2 ^ u - roundedUnits n d u| = 1 / 2 → roundedUnits n d u % 2 = 0) := by
  have hdq : (d : ℚ) ≠ 0 := by exact_mod_cast hd.ne'
  unfold roundedUnits
  by_cases hu : 0 ≤ u
  · obtain ⟨k, rfl⟩ := Int.eq_ofNat_of_zero_le hu
    have e : (n : ℚ) / d / 2 ^ (k : ℤ) = (n : ℚ) / ((d * 2 ^ k : ℕ) : ℚ) := by
      push_cast; rw [zpow_natCast, div_div]
    rw [if_pos hu, Int.toNat_natCast, e]
    exact roundHalfEven_spec n (by positivity)
  · obtain ⟨k, hk⟩ := Int.eq_ofNat_of_zero_le (show 0 ≤ -u by omega)
    obtain rfl : u = -(k : ℤ) := by omega
    have e : (n : ℚ) / d / 2 ^ (-(k : ℤ)) = ((n * 2 ^ k : ℕ) : ℚ) / d := by
      push_cast; rw [zpow_neg, zpow_natCast]; field_simp
    rw [if_neg hu, neg_neg, Int.toNat_natCast, e]
    exact roundHalfEven_spec _ hd

theorem scaleTwo_eq (m e : Int) : scaleTwo m e = (m : ℚ) * 2 ^ e := by
  unfold scaleTwo
  by_cases he : 0 ≤ e
  · obtain ⟨k, rfl⟩ := Int.eq_ofNat_of_zero_le he
    rw [if_pos he, Int.toNat_natCast, zpow_natCast]
    push_cast; rfl
  · obtain ⟨k, hk⟩ := Int.eq_ofNat_of_zero_le (show 0 ≤ -e by omega)
    obtain rfl : e = -(k : ℤ) := by omega
    rw [if_neg he, neg_neg, Int.toNat_natCast, Rat.mkRat_eq_div, zpow_neg, zpow_natCast]
    push_cast; rfl

theorem expField_lt (d : Dword) : expField d < 2048 := (d.extractLsb' 52 11).isLt

theorem fracField_lt (d : Dword) : fracField d < 2 ^ 52 := (d.extractLsb' 0 52).isLt

/-- The value of a pattern: sign, significand and unit (R14). -/
theorem real_eq (d : Dword) :
    real d = (if d.getLsbD 63 then (-1 : ℚ) else 1) * significand d * 2 ^ unitExponent d := by
  unfold real
  rw [scaleTwo_eq]
  by_cases h : d.getLsbD 63 = true
  · rw [if_pos h, if_pos h]; push_cast; ring
  · rw [if_neg h, if_neg h]; push_cast; ring

/-- Every finite pattern is an integer of at most 53 bits times a power of two. -/
theorem real_dyadic {d : Dword} (h : isFinite d = true) :
    ∃ (m v : ℤ), |m| < 2 ^ 53 ∧ -1074 ≤ v ∧ v ≤ 971 ∧ real d = m * 2 ^ v := by
  have he : expField d ≠ 2047 := by simpa [isFinite] using h
  have := expField_lt d
  have hf := fracField_lt d
  refine ⟨(if d.getLsbD 63 then -1 else 1) * significand d, unitExponent d, ?_, ?_, ?_, ?_⟩
  · have hs : significand d < 2 ^ 53 := by
      unfold significand
      split_ifs <;> omega
    split_ifs
    · rw [neg_one_mul, abs_neg, Nat.abs_cast]; exact_mod_cast hs
    · rw [one_mul, Nat.abs_cast]; exact_mod_cast hs
  · unfold unitExponent; omega
  · unfold unitExponent; omega
  · rw [real_eq]; push_cast; split_ifs <;> ring

/-- The value of the pattern with exponent part `k` and `N` units above it, for each N that RNE64 can choose there. -/
theorem real_pattern (neg : Bool) {k N : Nat} (hN : N ≤ 2 ^ 53) (hk : k = 0 ∨ 2 ^ 52 ≤ N)
    (hfin : k * 2 ^ 52 + N < 2047 * 2 ^ 52) :
    isFinite (BitVec.ofBool neg ++ BitVec.ofNat 63 (k * 2 ^ 52 + N)) = true ∧
      real (BitVec.ofBool neg ++ BitVec.ofNat 63 (k * 2 ^ 52 + N)) =
        (if neg then (-1 : ℚ) else 1) * N * 2 ^ ((k : ℤ) - 1074) := by
  generalize hp : k * 2 ^ 52 + N = p at *
  have hx : (BitVec.ofBool neg ++ BitVec.ofNat 63 p : Dword).toNat = neg.toNat * 2 ^ 63 + p := by
    rw [BitVec.toNat_append, BitVec.toNat_ofNat, Nat.mod_eq_of_lt (by omega), ← Nat.shiftLeft_add_eq_or_of_lt (by omega),
      Nat.shiftLeft_eq, BitVec.toNat_ofBool]
  have hb : neg.toNat ≤ 1 := by cases neg <;> simp
  have he : expField (BitVec.ofBool neg ++ BitVec.ofNat 63 p) = p / 2 ^ 52 := by
    unfold expField
    rw [BitVec.extractLsb'_toNat, hx, Nat.shiftRight_eq_div_pow]
    omega
  have hf : fracField (BitVec.ofBool neg ++ BitVec.ofNat 63 p) = p % 2 ^ 52 := by
    unfold fracField
    rw [BitVec.extractLsb'_toNat, hx, Nat.shiftRight_zero]
    omega
  have hs : (BitVec.ofBool neg ++ BitVec.ofNat 63 p : Dword).getLsbD 63 = neg := by
    rw [BitVec.getLsbD_append]; simp
  constructor
  · unfold isFinite
    rw [he, bne_iff_ne]
    omega
  · rw [real_eq, hs]
    have hsig : (significand (BitVec.ofBool neg ++ BitVec.ofNat 63 p) : ℚ) *
        2 ^ unitExponent (BitVec.ofBool neg ++ BitVec.ofNat 63 p) = N * 2 ^ ((k : ℤ) - 1074) := by
      unfold significand unitExponent
      rw [he, hf]
      have split : (p < 2 ^ 52 ∧ k = 0) ∨ (2 ^ 52 ≤ p ∧ N < 2 ^ 53 ∧ 2 ^ 52 ≤ N) ∨ N = 2 ^ 53 := by omega
      rcases split with ⟨h1, rfl⟩ | ⟨h1, h2, h3⟩ | rfl
      · have z : p / 2 ^ 52 = 0 := by omega
        have e : p % 2 ^ 52 = N := by omega
        rw [z, e, if_pos rfl]
        norm_num
      · have z : p / 2 ^ 52 = k + 1 := by omega
        have e : 2 ^ 52 + p % 2 ^ 52 = N := by omega
        rw [z, e, if_neg (by omega), max_eq_left (by omega)]
        congr 2
        omega
      · have z : p / 2 ^ 52 = k + 2 := by omega
        have e : p % 2 ^ 52 = 0 := by omega
        rw [z, e, if_neg (by omega), max_eq_left (by omega)]
        have : (((k + 2 : ℕ) : ℤ) - 1075) = ((k : ℤ) - 1074) + 1 := by push_cast; ring
        rw [this, zpow_add₀ two_ne_zero]
        push_cast
        ring
    rw [mul_assoc, hsig, mul_assoc]

@[simp] theorem rne64_zero : rne64 0 = 0#64 := by unfold rne64; rw [if_pos rfl]

@[simp] theorem real_zero : real 0#64 = 0 := by
  rw [real_eq]
  simp [significand, expField, fracField]

/-- What RNE64 chooses: with unit 2^u, where |q| has its leading bit 52 places above unless u is the least unit, the
nearest whole number N of units, an even one half way between two. -/
theorem rne64_spec {q : ℚ} (h0 : q ≠ 0) (hq : |q| < 2 ^ 1023) :
    ∃ (u : ℤ) (N : ℕ), -1074 ≤ u ∧ u ≤ 970 ∧ |q| < 2 ^ (u + 53) ∧ N ≤ 2 ^ 53 ∧
      (u = -1074 ∨ (2 : ℚ) ^ (u + 52) ≤ |q| ∧ 2 ^ 52 ≤ N) ∧
      |(|q| / 2 ^ u - N)| ≤ 1 / 2 ∧ (|(|q| / 2 ^ u - N)| = 1 / 2 → N % 2 = 0) ∧
      isFinite (rne64 q) = true ∧ real (rne64 q) = (if q < 0 then (-1 : ℚ) else 1) * N * 2 ^ u ∧
      (rne64 q).getLsbD 0 = decide (N % 2 = 1) := by
  have hn : 0 < q.num.natAbs := by
    rw [Int.natAbs_pos]; exact Rat.num_ne_zero.2 h0
  have hd := q.den_pos
  have hval : (q.num.natAbs : ℚ) / q.den = |q| := by
    rw [Nat.cast_natAbs, Int.cast_abs, ← Rat.num_div_den q, abs_div, Nat.abs_cast, Rat.num_div_den]
  obtain ⟨f1, f2⟩ := floorLog_spec hn hd
  rw [hval] at f1 f2
  have hfl : floorLog q.num.natAbs q.den < 1023 := by
    rw [← zpow_lt_zpow_iff_right₀ (one_lt_two : (1 : ℚ) < 2)]
    exact f1.trans_lt (by exact_mod_cast hq)
  obtain ⟨r1, r2⟩ := roundedUnits_spec q.num.natAbs hd (lastPlace q.num.natAbs q.den)
  rw [hval] at r1 r2
  have hrne : rne64 q = BitVec.ofBool (decide (q < 0)) ++ BitVec.ofNat 63 (nearestMagnitude q.num.natAbs q.den) := by
    unfold rne64; rw [if_neg h0]
  unfold nearestMagnitude at hrne
  simp only at hrne
  generalize hu : lastPlace q.num.natAbs q.den = u at *
  generalize hN : roundedUnits q.num.natAbs q.den u = N at *
  unfold lastPlace at hu
  generalize floorLog q.num.natAbs q.den = e at *
  have hu1 : -1074 ≤ u := by omega
  have hu2 : u ≤ 970 := by omega
  have hp : (0 : ℚ) < 2 ^ u := by positivity
  have hlt : |q| < 2 ^ (u + 53) := f2.trans_le (zpow_le_zpow_right₀ one_le_two (by omega))
  have hx : |q| / 2 ^ u < 2 ^ 53 := by
    rw [div_lt_iff₀ hp]
    refine hlt.trans_eq ?_
    rw [zpow_add₀ two_ne_zero, mul_comm]; norm_num
  have hN2 : N ≤ 2 ^ 53 := by
    have : (N : ℚ) < 2 ^ 53 + 1 := by have := abs_le.1 r1; linarith
    have : N < 2 ^ 53 + 1 := by exact_mod_cast this
    omega
  have hmid : u = -1074 ∨ (2 : ℚ) ^ (u + 52) ≤ |q| ∧ 2 ^ 52 ≤ N := by
    by_cases hm : u = -1074
    · exact .inl hm
    · have hue : u + 52 = e := by omega
      have h52 : (2 : ℚ) ^ 52 ≤ |q| / 2 ^ u := by
        rw [le_div_iff₀ hp]
        refine le_trans (le_of_eq ?_) f1
        rw [← hue, zpow_add₀ two_ne_zero, mul_comm]; norm_num
      refine .inr ⟨hue ▸ f1, ?_⟩
      have : (2 : ℚ) ^ 52 - 1 < N := by have := abs_le.1 r1; linarith
      have : (2 : ℕ) ^ 52 < N + 1 := by
        have : (2 : ℚ) ^ 52 < N + 1 := by linarith
        exact_mod_cast this
      omega
  obtain ⟨k, hk⟩ := Int.eq_ofNat_of_zero_le (show 0 ≤ u + 1074 by omega)
  have hmin : min ((u + 1074).toNat * 2 ^ 52 + N) (0x7FF * 2 ^ 52) = k * 2 ^ 52 + N := by
    rw [hk, Int.toNat_natCast]; omega
  rw [hmin] at hrne
  have pat := real_pattern (decide (q < 0)) (k := k) (N := N) hN2 (by omega) (by omega)
  rw [← hrne] at pat
  refine ⟨u, N, hu1, hu2, hlt, hN2, hmid, r1, r2, pat.1, ?_, ?_⟩
  · rw [pat.2]
    have : (k : ℤ) - 1074 = u := by omega
    rw [this]
    by_cases hq0 : q < 0 <;> simp [hq0]
  · rw [hrne, BitVec.getLsbD_append, if_pos (by omega), BitVec.getLsbD_ofNat]
    simp [Nat.testBit_zero, Nat.add_mod, Nat.mul_mod]

/-- RNE64 is exact on an integer of at most 53 bits times a power of two. -/
theorem real_rne64_of_dyadic {m v : ℤ} (hm : |m| < 2 ^ 53) (hv : -1074 ≤ v)
    (hq : |(m : ℚ) * 2 ^ v| < 2 ^ 1023) : real (rne64 ((m : ℚ) * 2 ^ v)) = m * 2 ^ v := by
  by_cases h0 : (m : ℚ) * 2 ^ v = 0
  · rw [h0, rne64_zero, real_zero]
  generalize hqd : (m : ℚ) * 2 ^ v = q at *
  obtain ⟨u, N, hu1, -, -, -, hmid, r1, -, -, hr, -⟩ := rne64_spec h0 hq
  have habs : |q| = (|m| : ℤ) * 2 ^ v := by
    rw [← hqd, abs_mul, Int.cast_abs, abs_of_pos (by positivity : (0 : ℚ) < 2 ^ v)]
  have huv : u ≤ v := by
    rcases hmid with rfl | ⟨hmid, -⟩
    · exact hv
    · by_contra hlt
      have h1 : |q| < 2 ^ (53 + v) := by
        rw [habs, zpow_add₀ two_ne_zero]
        have : ((|m| : ℤ) : ℚ) < 2 ^ (53 : ℤ) := by exact_mod_cast hm
        gcongr
      have h2 : (2 : ℚ) ^ (53 + v) ≤ 2 ^ (u + 52) := zpow_le_zpow_right₀ one_le_two (by omega)
      linarith
  obtain ⟨j, hj⟩ := Int.eq_ofNat_of_zero_le (show 0 ≤ v - u by omega)
  have hx : |q| / 2 ^ u = ((|m| * 2 ^ j : ℤ) : ℚ) := by
    rw [habs, div_eq_iff (by positivity)]
    push_cast
    rw [mul_assoc, ← zpow_natCast, ← zpow_add₀ two_ne_zero]
    congr 2; omega
  have hN : (N : ℤ) = |m| * 2 ^ j := by
    rw [hx] at r1
    have h1 : |((|m| * 2 ^ j - N : ℤ) : ℚ)| < 1 := by
      push_cast; push_cast at r1; linarith
    have h2 : |(|m| * 2 ^ j - N : ℤ)| < 1 := by exact_mod_cast h1
    have := Int.abs_lt_one_iff.1 h2
    omega
  have hq2 : |q| = N * 2 ^ u := by
    have : (N : ℚ) = ((|m| * 2 ^ j : ℤ) : ℚ) := by exact_mod_cast hN
    rw [this, ← hx]; field_simp
  rw [hr]
  by_cases hneg : q < 0
  · rw [if_pos hneg, mul_assoc, ← hq2, abs_of_neg hneg]; ring
  · rw [if_neg hneg, mul_assoc, ← hq2, abs_of_nonneg (not_lt.1 hneg)]; ring

end Sys2Proof.Machine
end

