-- ==== Sys2Proof/Laws/State.lean ====
section
/-! SUPPORT. One lemma per field and update of the state, each true by unfolding the update once. -/

namespace Sys2Proof.Machine

section registers
variable (s : State) (w : Word) (v : Dword)
@[simp] theorem setCmd_cmd : (s.setCmd w).cmd = w := rfl
@[simp] theorem setCmd_din : (s.setCmd w).din = s.din := rfl
@[simp] theorem setCmd_dout : (s.setCmd w).dout = s.dout := rfl
@[simp] theorem setCmd_raw : (s.setCmd w).raw = s.raw := rfl
@[simp] theorem setCmd_status : (s.setCmd w).status = s.status := rfl
@[simp] theorem setCmd_cfg : (s.setCmd w).cfg = s.cfg := rfl
@[simp] theorem setCmd_mem : (s.setCmd w).mem = s.mem := rfl
@[simp] theorem setCmd_resets : (s.setCmd w).resets = s.resets := rfl
@[simp] theorem setCmd_host : (s.setCmd w).host = s.host := rfl
@[simp] theorem setCmd_answer : (s.setCmd w).answer = s.answer := rfl
@[simp] theorem setCmd_unlisted : (s.setCmd w).unlisted = s.unlisted := rfl
@[simp] theorem setCmd_readByte (a : Nat) : (s.setCmd w).readByte a = s.readByte a := rfl
@[simp] theorem setDin_cmd : (s.setDin v).cmd = s.cmd := rfl
@[simp] theorem setDin_din : (s.setDin v).din = v := rfl
@[simp] theorem setDin_dout : (s.setDin v).dout = s.dout := rfl
@[simp] theorem setDin_raw : (s.setDin v).raw = s.raw := rfl
@[simp] theorem setDin_status : (s.setDin v).status = s.status := rfl
@[simp] theorem setDin_cfg : (s.setDin v).cfg = s.cfg := rfl
@[simp] theorem setDin_mem : (s.setDin v).mem = s.mem := rfl
@[simp] theorem setDin_resets : (s.setDin v).resets = s.resets := rfl
@[simp] theorem setDin_host : (s.setDin v).host = s.host := rfl
@[simp] theorem setDin_answer : (s.setDin v).answer = s.answer := rfl
@[simp] theorem setDin_unlisted : (s.setDin v).unlisted = s.unlisted := rfl
@[simp] theorem setDin_readByte (a : Nat) : (s.setDin v).readByte a = s.readByte a := rfl
@[simp] theorem setDout_cmd : (s.setDout v).cmd = s.cmd := rfl
@[simp] theorem setDout_din : (s.setDout v).din = s.din := rfl
@[simp] theorem setDout_dout : (s.setDout v).dout = v := rfl
@[simp] theorem setDout_raw : (s.setDout v).raw = s.raw := rfl
@[simp] theorem setDout_status : (s.setDout v).status = s.status := rfl
@[simp] theorem setDout_cfg : (s.setDout v).cfg = s.cfg := rfl
@[simp] theorem setDout_mem : (s.setDout v).mem = s.mem := rfl
@[simp] theorem setDout_resets : (s.setDout v).resets = s.resets := rfl
@[simp] theorem setDout_host : (s.setDout v).host = s.host := rfl
@[simp] theorem setDout_answer : (s.setDout v).answer = s.answer := rfl
@[simp] theorem setDout_unlisted : (s.setDout v).unlisted = s.unlisted := rfl
@[simp] theorem setDout_readByte (a : Nat) : (s.setDout v).readByte a = s.readByte a := rfl
@[simp] theorem setRaw_cmd : (s.setRaw w).cmd = s.cmd := rfl
@[simp] theorem setRaw_din : (s.setRaw w).din = s.din := rfl
@[simp] theorem setRaw_dout : (s.setRaw w).dout = s.dout := rfl
@[simp] theorem setRaw_raw : (s.setRaw w).raw = w := rfl
@[simp] theorem setRaw_status : (s.setRaw w).status = s.status := rfl
@[simp] theorem setRaw_cfg : (s.setRaw w).cfg = s.cfg := rfl
@[simp] theorem setRaw_mem : (s.setRaw w).mem = s.mem := rfl
@[simp] theorem setRaw_resets : (s.setRaw w).resets = s.resets := rfl
@[simp] theorem setRaw_host : (s.setRaw w).host = s.host := rfl
@[simp] theorem setRaw_answer : (s.setRaw w).answer = s.answer := rfl
@[simp] theorem setRaw_unlisted : (s.setRaw w).unlisted = s.unlisted := rfl
@[simp] theorem setRaw_readByte (a : Nat) : (s.setRaw w).readByte a = s.readByte a := rfl
@[simp] theorem setStatus_cmd : (s.setStatus w).cmd = s.cmd := rfl
@[simp] theorem setStatus_din : (s.setStatus w).din = s.din := rfl
@[simp] theorem setStatus_dout : (s.setStatus w).dout = s.dout := rfl
@[simp] theorem setStatus_raw : (s.setStatus w).raw = s.raw := rfl
@[simp] theorem setStatus_status : (s.setStatus w).status = w := rfl
@[simp] theorem setStatus_cfg : (s.setStatus w).cfg = s.cfg := rfl
@[simp] theorem setStatus_mem : (s.setStatus w).mem = s.mem := rfl
@[simp] theorem setStatus_resets : (s.setStatus w).resets = s.resets := rfl
@[simp] theorem setStatus_host : (s.setStatus w).host = s.host := rfl
@[simp] theorem setStatus_answer : (s.setStatus w).answer = s.answer := rfl
@[simp] theorem setStatus_unlisted : (s.setStatus w).unlisted = s.unlisted := rfl
@[simp] theorem setStatus_readByte (a : Nat) : (s.setStatus w).readByte a = s.readByte a := rfl
end registers

section writeByte
variable (s : State) (i : Nat) (b : Byte)
@[simp] theorem writeByte_cmd : (s.writeByte i b).cmd = s.cmd := rfl
@[simp] theorem writeByte_din : (s.writeByte i b).din = s.din := rfl
@[simp] theorem writeByte_dout : (s.writeByte i b).dout = s.dout := rfl
@[simp] theorem writeByte_raw : (s.writeByte i b).raw = s.raw := rfl
@[simp] theorem writeByte_status : (s.writeByte i b).status = s.status := rfl
@[simp] theorem writeByte_cfg : (s.writeByte i b).cfg = s.cfg := rfl
@[simp] theorem writeByte_resets : (s.writeByte i b).resets = s.resets := rfl
@[simp] theorem writeByte_host : (s.writeByte i b).host = s.host := rfl
@[simp] theorem writeByte_answer : (s.writeByte i b).answer = s.answer := rfl
@[simp] theorem writeByte_unlisted : (s.writeByte i b).unlisted = s.unlisted := rfl
end writeByte

section answer
variable (s : State) (v : Dword) (e : Bool)
@[simp] theorem answerRead_cmd : (s.answerRead v e).cmd = s.cmd := rfl
@[simp] theorem answerRead_din : (s.answerRead v e).din = s.din := rfl
@[simp] theorem answerRead_dout : (s.answerRead v e).dout = s.dout := rfl
@[simp] theorem answerRead_raw : (s.answerRead v e).raw = s.raw := rfl
@[simp] theorem answerRead_status : (s.answerRead v e).status = s.status := rfl
@[simp] theorem answerRead_cfg : (s.answerRead v e).cfg = s.cfg := rfl
@[simp] theorem answerRead_mem : (s.answerRead v e).mem = s.mem := rfl
@[simp] theorem answerRead_resets : (s.answerRead v e).resets = s.resets := rfl
@[simp] theorem answerRead_host : (s.answerRead v e).host = s.host := rfl
@[simp] theorem answerRead_readByte (a : Nat) : (s.answerRead v e).readByte a = s.readByte a := rfl
@[simp] theorem answerWrite_cmd : (s.answerWrite e).cmd = s.cmd := rfl
@[simp] theorem answerWrite_din : (s.answerWrite e).din = s.din := rfl
@[simp] theorem answerWrite_dout : (s.answerWrite e).dout = s.dout := rfl
@[simp] theorem answerWrite_raw : (s.answerWrite e).raw = s.raw := rfl
@[simp] theorem answerWrite_status : (s.answerWrite e).status = s.status := rfl
@[simp] theorem answerWrite_cfg : (s.answerWrite e).cfg = s.cfg := rfl
@[simp] theorem answerWrite_mem : (s.answerWrite e).mem = s.mem := rfl
@[simp] theorem answerWrite_resets : (s.answerWrite e).resets = s.resets := rfl
@[simp] theorem answerWrite_host : (s.answerWrite e).host = s.host := rfl
@[simp] theorem answerWrite_readByte (a : Nat) : (s.answerWrite e).readByte a = s.readByte a := rfl
end answer

section afterReset
variable (s : State)
@[simp] theorem afterReset_cmd : s.afterReset.cmd = 0#32 := rfl
@[simp] theorem afterReset_din : s.afterReset.din = 0#64 := rfl
@[simp] theorem afterReset_dout : s.afterReset.dout = 0#64 := rfl
@[simp] theorem afterReset_raw : s.afterReset.raw = 0#32 := rfl
@[simp] theorem afterReset_status : s.afterReset.status = 0#32 := rfl
@[simp] theorem afterReset_cfg : s.afterReset.cfg = s.cfg := rfl
@[simp] theorem afterReset_mem : s.afterReset.mem = [] := rfl
@[simp] theorem afterReset_resets : s.afterReset.resets = s.resets + 1 := rfl
@[simp] theorem afterReset_host : s.afterReset.host = s.host := rfl
end afterReset

/-- A byte read looks at the buffer, the kind of reset and the number of resets, and at nothing else. -/
theorem readByte_congr {s t : State} (hm : t.mem = s.mem) (hc : t.cfg = s.cfg) (hr : t.resets = s.resets) (a : Nat) :
    t.readByte a = s.readByte a := by
  simp [State.readByte, State.unlisted, hm, hc, hr]

end Sys2Proof.Machine
end

