-- ==== Sys2Proof/Laws/Memory.lean ====
section
/-! SUPPORT. The memory laws: a read after a write, and the canonical form. -/

namespace Sys2Proof.Machine

theorem Memory.find_erase (m : Memory) (i a : Nat) :
    Memory.find (Memory.erase m i) a = if a = i then none else Memory.find m a := by
  induction m with
  | nil => simp [Memory.erase, Memory.find]
  | cons c m ih =>
    by_cases hc : c.1 = i
    · by_cases ha : a = i
      · subst ha; simpa [Memory.erase, hc] using ih
      · have : ¬ i = a := fun h => ha h.symm
        simp [Memory.erase, Memory.find, hc, ih, ha, this]
    · by_cases ha : a = i
      · subst ha; simp [Memory.erase, Memory.find, hc, ih]
      · simp [Memory.erase, Memory.find, hc, ih, ha]

theorem Memory.find_insert (m : Memory) (i : Nat) (b : Byte) (a : Nat) (h : Memory.find m i = none) :
    Memory.find (Memory.insert m i b) a = if a = i then some b else Memory.find m a := by
  induction m with
  | nil => by_cases ha : a = i <;> simp_all [Memory.insert, Memory.find, eq_comm]
  | cons c m ih =>
    have hci : c.1 ≠ i := by intro e; simp [Memory.find, e] at h
    have hm : Memory.find m i = none := by simpa [Memory.find, hci] using h
    by_cases hlt : i < c.1
    · by_cases ha : a = i <;> simp_all [Memory.insert, Memory.find, eq_comm]
    · by_cases ha : a = i
      · subst ha; simp [Memory.insert, Memory.find, hlt, hci, ih hm]
      · simp [Memory.insert, Memory.find, hlt, ih hm, ha]

/-- A read after a write gives the byte written at its address and the earlier byte elsewhere. -/
theorem Memory.read_write (dflt : Nat → Byte) (m : Memory) (i : Nat) (b : Byte) (a : Nat) :
    Memory.read dflt (Memory.write dflt m i b) a = if a = i then b else Memory.read dflt m a := by
  have he : Memory.find (Memory.erase m i) i = none := by simp [Memory.find_erase]
  by_cases hb : b = dflt i
  · by_cases ha : a = i
    · simp [Memory.read, Memory.write, ← hb, ha, Memory.find_erase]
    · simp [Memory.read, Memory.write, ← hb, ha, Memory.find_erase]
  · by_cases ha : a = i <;>
      simp [Memory.read, Memory.write, hb, ha, Memory.find_insert _ _ _ _ he, Memory.find_erase]

/-- A read after a write of one byte (00_scope.md R15). -/
@[simp] theorem readByte_writeByte (s : State) (i : Nat) (b : Byte) (a : Nat) :
    (s.writeByte i b).readByte a = if a = i then b else s.readByte a :=
  Memory.read_write s.unlisted s.mem i b a

theorem Memory.mem_erase {m : Memory} {i : Nat} {c : Host.Cell} :
    c ∈ Memory.erase m i ↔ c ∈ m ∧ c.1 ≠ i := by
  induction m with
  | nil => simp [Memory.erase]
  | cons d m ih =>
    by_cases hd : d.1 = i
    · simp only [Memory.erase, hd, if_true, ih, List.mem_cons]
      constructor
      · rintro ⟨h1, h2⟩; exact ⟨.inr h1, h2⟩
      · rintro ⟨rfl | h1, h2⟩
        · exact absurd hd h2
        · exact ⟨h1, h2⟩
    · simp only [Memory.erase, hd, if_false, List.mem_cons, ih]
      constructor
      · rintro (rfl | ⟨h1, h2⟩)
        · exact ⟨.inl rfl, hd⟩
        · exact ⟨.inr h1, h2⟩
      · rintro ⟨rfl | h1, h2⟩
        · exact .inl rfl
        · exact .inr ⟨h1, h2⟩

theorem Memory.mem_insert {m : Memory} {i : Nat} {b : Byte} {c : Host.Cell} :
    c ∈ Memory.insert m i b ↔ c = (i, b) ∨ c ∈ m := by
  induction m with
  | nil => simp [Memory.insert]
  | cons d m ih =>
    by_cases h : i < d.1
    · simp [Memory.insert, h]
    · simp only [Memory.insert, h, if_false, List.mem_cons, ih]; tauto

/-- A write lists no address but its own and those listed before. -/
theorem Memory.mem_write {dflt : Nat → Byte} {m : Memory} {i : Nat} {b : Byte} {c : Host.Cell}
    (h : c ∈ Memory.write dflt m i b) : c = (i, b) ∧ b ≠ dflt i ∨ c ∈ m ∧ c.1 ≠ i := by
  by_cases hb : b = dflt i
  · simp only [Memory.write, ← hb, if_true, Memory.mem_erase] at h; exact .inr h
  · simp only [Memory.write, hb, if_false, Memory.mem_insert, Memory.mem_erase] at h
    exact h.imp (fun h => ⟨h, hb⟩) id

theorem Memory.erase_rising {m : Memory} (i : Nat) (h : m.Pairwise (fun a b => a.1 < b.1)) :
    (Memory.erase m i).Pairwise (fun a b => a.1 < b.1) := by
  induction m with
  | nil => exact h
  | cons d m ih =>
    rw [List.pairwise_cons] at h
    by_cases hd : d.1 = i
    · simpa [Memory.erase, hd] using ih h.2
    · simp only [Memory.erase, hd, if_false, List.pairwise_cons]
      exact ⟨fun c hc => h.1 c (Memory.mem_erase.1 hc).1, ih h.2⟩

theorem Memory.insert_rising {m : Memory} {i : Nat} (b : Byte) (h : m.Pairwise (fun a b => a.1 < b.1))
    (hi : ∀ c ∈ m, c.1 ≠ i) : (Memory.insert m i b).Pairwise (fun a b => a.1 < b.1) := by
  induction m with
  | nil => simp [Memory.insert]
  | cons d m ih =>
    have h' := List.pairwise_cons.1 h
    by_cases hlt : i < d.1
    · simp only [Memory.insert, hlt, if_true, List.pairwise_cons]
      refine ⟨?_, h'⟩
      intro c hc
      rcases List.mem_cons.1 hc with rfl | hc
      · exact hlt
      · exact lt_trans hlt (h'.1 c hc)
    · simp only [Memory.insert, hlt, if_false, List.pairwise_cons]
      refine ⟨?_, ih h'.2 fun c hc => hi c (List.mem_cons_of_mem _ hc)⟩
      intro c hc
      rcases Memory.mem_insert.1 hc with rfl | hc
      · have := hi d List.mem_cons_self
        show d.1 < i
        omega
      · exact h'.1 c hc

/-- Every write keeps the canonical form. -/
theorem Memory.write_wf {dflt : Nat → Byte} {m : Memory} (i : Nat) (b : Byte) (h : Memory.wf dflt m) :
    Memory.wf dflt (Memory.write dflt m i b) := by
  refine ⟨?_, ?_⟩
  · by_cases hb : b = dflt i
    · simpa [Memory.write, ← hb] using Memory.erase_rising i h.1
    · simp only [Memory.write, hb, if_false]
      exact Memory.insert_rising b (Memory.erase_rising i h.1) fun c hc => (Memory.mem_erase.1 hc).2
  · intro c hc
    rcases Memory.mem_write hc with ⟨rfl, hb⟩ | ⟨hm, -⟩
    · exact hb
    · exact h.2 c hm

theorem Memory.find_eq_none {m : Memory} {i : Nat} (h : ∀ c ∈ m, c.1 ≠ i) : Memory.find m i = none := by
  induction m with
  | nil => rfl
  | cons d m ih =>
    simp [Memory.find, h d List.mem_cons_self, ih fun c hc => h c (List.mem_cons_of_mem _ hc)]

theorem Memory.erase_of_absent {m : Memory} {i : Nat} (h : ∀ c ∈ m, c.1 ≠ i) : Memory.erase m i = m := by
  induction m with
  | nil => rfl
  | cons d m ih =>
    simp [Memory.erase, h d List.mem_cons_self, ih fun c hc => h c (List.mem_cons_of_mem _ hc)]

/-- In the canonical form, a write of the byte that stands there changes nothing: equal memories are equal lists. -/
theorem Memory.write_read {dflt : Nat → Byte} {m : Memory} (i : Nat) (h : Memory.wf dflt m) :
    Memory.write dflt m i (Memory.read dflt m i) = m := by
  obtain ⟨hr, hd⟩ := h
  induction m with
  | nil => simp [Memory.read, Memory.write, Memory.find, Memory.erase]
  | cons c m ih =>
    have h' := List.pairwise_cons.1 hr
    by_cases hc : c.1 = i
    · have habs : ∀ e ∈ m, e.1 ≠ i := fun e he => by have := h'.1 e he; omega
      have hne : c.2 ≠ dflt i := hc ▸ hd c List.mem_cons_self
      have hins : Memory.insert m i c.2 = c :: m := by
        cases m with
        | nil => simp [Memory.insert, ← hc]
        | cons e m =>
          have : c.1 < e.1 := h'.1 e List.mem_cons_self
          simp [Memory.insert, ← hc, this]
      simp [Memory.read, Memory.write, Memory.find, Memory.erase, hc, hne, Memory.erase_of_absent habs, hins]
    · have ih' := ih h'.2 fun e he => hd e (List.mem_cons_of_mem _ he)
      have hread : Memory.read dflt (c :: m) i = Memory.read dflt m i := by simp [Memory.read, Memory.find, hc]
      rw [hread]
      by_cases hb : Memory.read dflt m i = dflt i
      · simp only [Memory.write, hb, if_true] at ih' ⊢
        simp [Memory.erase, hc, ih']
      · simp only [Memory.write, hb, if_false] at ih' ⊢
        have hlt : ¬ i < c.1 := by
          intro hlt
          apply hb
          have : ∀ e ∈ m, e.1 ≠ i := fun e he => by have := h'.1 e he; omega
          simp [Memory.read, Memory.find_eq_none this]
        simp [Memory.erase, hc, Memory.insert, hlt, ih']

/-- The buffer after the first reset is in the canonical form. -/
theorem Memory.wf_reset : Memory.wf State.reset.unlisted State.reset.mem :=
  ⟨List.Pairwise.nil, fun _ h => by cases h⟩

end Sys2Proof.Machine
end

