-- ==== Sys2Proof/Laws/Operands.lean ====
section
/-! SUPPORT. What a store of a value does and what a load of one reads, for each operation once. -/

namespace Sys2Proof.Machine

/-- The stored bytes of a pattern are its bit slices (20_memory.md R53, R54; 40_byte_order.md R111). -/
theorem laneByte_toNat (ord : Order) (w k : Nat) {n : Nat} (x : BitVec n) :
    laneByte ord w k x.toNat = x.extractLsb' (8 * lane ord w k) 8 := rfl

section storeLanes
variable (ord : Order) (w o v : Nat)

/-- A store changes the buffer and nothing else. -/
theorem storeLanes_frame (n k : Nat) (s : State) :
    storeLanes ord w o v n k s = { s with mem := (storeLanes ord w o v n k s).mem } := by
  induction n generalizing k s with
  | zero => rfl
  | succ n ih => rw [storeLanes, ih]; rfl

/-- A store writes the lanes from o+k on, and every other byte reads as before. -/
theorem storeLanes_readByte (n k : Nat) (s : State) (a : Nat) :
    (storeLanes ord w o v n k s).readByte a =
      if o + k ≤ a ∧ a < o + k + n then laneByte ord w (a - o) v else s.readByte a := by
  induction n generalizing k s with
  | zero => simp [storeLanes]
  | succ n ih =>
    rw [storeLanes, ih, readByte_writeByte]
    by_cases h1 : o + (k + 1) ≤ a ∧ a < o + (k + 1) + n
    · rw [if_pos h1, if_pos (by omega)]
    · rw [if_neg h1]
      by_cases h2 : a = o + k
      · subst h2
        rw [if_pos rfl, if_pos (by omega), Nat.add_sub_cancel_left]
      · rw [if_neg h2, if_neg (by omega)]

theorem storeLanes_wf (n k : Nat) {s : State} (h : Memory.wf s.unlisted s.mem) :
    Memory.wf s.unlisted (storeLanes ord w o v n k s).mem := by
  induction n generalizing k s with
  | zero => exact h
  | succ n ih => exact ih (k + 1) (s := s.writeByte (o + k) _) (Memory.write_wf _ _ h)

theorem storeLanes_mem (n k : Nat) {s : State} {c : Host.Cell} (h : c ∈ (storeLanes ord w o v n k s).mem) :
    (o + k ≤ c.1 ∧ c.1 < o + k + n) ∨ c ∈ s.mem := by
  induction n generalizing k s with
  | zero => exact .inr h
  | succ n ih =>
    rcases ih (k + 1) h with h | h
    · exact .inl (by omega)
    · rcases Memory.mem_write h with ⟨rfl, -⟩ | ⟨h, -⟩
      · exact .inl (by show o + k ≤ o + k ∧ o + k < _; omega)
      · exact .inr h

/-- In the canonical form, a store of the bytes that stand there changes nothing. -/
theorem storeLanes_self (n k : Nat) {s : State} (h : Memory.wf s.unlisted s.mem)
    (hb : ∀ j, j < n → s.readByte (o + (k + j)) = laneByte ord w (k + j) v) :
    storeLanes ord w o v n k s = s := by
  induction n generalizing k with
  | zero => rfl
  | succ n ih =>
    have h0 : s.writeByte (o + k) (laneByte ord w k v) = s := by
      have e : Memory.read s.unlisted s.mem (o + k) = laneByte ord w k v := hb 0 (by omega)
      simp only [State.writeByte, ← e, Memory.write_read _ h]
    rw [storeLanes, h0]
    refine ih (k + 1) fun j hj => ?_
    have := hb (j + 1) (by omega)
    rwa [show k + (j + 1) = k + 1 + j by omega] at this

end storeLanes

section storeValue
variable (ord : Order) (w o v : Nat) (s : State)

theorem storeValue_frame :
    storeValue ord w o v s = { s with mem := (storeValue ord w o v s).mem } := storeLanes_frame ..

@[simp] theorem storeValue_cmd : (storeValue ord w o v s).cmd = s.cmd := by rw [storeValue_frame]
@[simp] theorem storeValue_din : (storeValue ord w o v s).din = s.din := by rw [storeValue_frame]
@[simp] theorem storeValue_dout : (storeValue ord w o v s).dout = s.dout := by rw [storeValue_frame]
@[simp] theorem storeValue_raw : (storeValue ord w o v s).raw = s.raw := by rw [storeValue_frame]
@[simp] theorem storeValue_status : (storeValue ord w o v s).status = s.status := by rw [storeValue_frame]
@[simp] theorem storeValue_cfg : (storeValue ord w o v s).cfg = s.cfg := by rw [storeValue_frame]
@[simp] theorem storeValue_resets : (storeValue ord w o v s).resets = s.resets := by rw [storeValue_frame]
@[simp] theorem storeValue_host : (storeValue ord w o v s).host = s.host := by rw [storeValue_frame]
@[simp] theorem storeValue_answer : (storeValue ord w o v s).answer = s.answer := by rw [storeValue_frame]
@[simp] theorem storeValue_unlisted : (storeValue ord w o v s).unlisted = s.unlisted := by rw [storeValue_frame]; rfl

/-- An encode writes exactly the bytes Buf[o] .. Buf[o+W-1] (20_memory.md R59). -/
theorem storeValue_readByte (a : Nat) :
    (storeValue ord w o v s).readByte a =
      if o ≤ a ∧ a < o + w then laneByte ord w (a - o) v else s.readByte a := by
  rw [storeValue, storeLanes_readByte]; rfl

variable {s}

theorem storeValue_wf (h : Memory.wf s.unlisted s.mem) : Memory.wf s.unlisted (storeValue ord w o v s).mem :=
  storeLanes_wf ord w o v w 0 h

theorem storeValue_mem {c : Host.Cell} (h : c ∈ (storeValue ord w o v s).mem) :
    (o ≤ c.1 ∧ c.1 < o + w) ∨ c ∈ s.mem := storeLanes_mem ord w o v w 0 h

theorem storeValue_self (h : Memory.wf s.unlisted s.mem)
    (hb : ∀ j, j < w → s.readByte (o + j) = laneByte ord w j v) : storeValue ord w o v s = s :=
  storeLanes_self ord w o v w 0 h fun j hj => by simpa using hb j hj

end storeValue

/-- Byte values in one number: disjoint shifted bytes sum to their concatenation (40_byte_order.md R108). -/
theorem toNat_append_byte {n : Nat} (x : BitVec n) (b : Byte) : (x ++ b).toNat = x.toNat <<< 8 + b.toNat := by
  rw [BitVec.toNat_append, Nat.shiftLeft_add_eq_or_of_lt b.isLt]

theorem toNat_append_four (a b c d : Byte) :
    (a ++ b ++ c ++ d).toNat = a.toNat <<< 24 + b.toNat <<< 16 + c.toNat <<< 8 + d.toNat := by
  rw [toNat_append_byte, toNat_append_byte, toNat_append_byte]
  simp only [Nat.shiftLeft_eq]
  omega

section loadValue
variable (o : Nat) (s : State)

/-- A load looks at the bytes of its range and at nothing else. -/
theorem loadValue_congr (ord : Order) (w : Nat) {s t : State}
    (h : ∀ k, k < w → t.readByte (o + k) = s.readByte (o + k)) : loadValue ord w o t = loadValue ord w o s := by
  unfold loadValue
  congr 1
  apply List.map_congr_left
  intro k hk
  rw [h k (List.mem_range.1 hk)]

theorem loadValue_lsbf_two :
    loadValue .lsbf 2 o s = (s.readByte (o + 1) ++ s.readByte o).toNat := by
  rw [toNat_append_byte]
  simp [loadValue, lane, List.range_succ]
  omega

theorem loadValue_msbf_two :
    loadValue .msbf 2 o s = (s.readByte o ++ s.readByte (o + 1)).toNat := by
  rw [toNat_append_byte]
  simp [loadValue, lane, List.range_succ]

theorem loadValue_four (ord : Order) :
    loadValue ord 4 o s =
      (s.readByte o).toNat <<< (8 * lane ord 4 0) + (s.readByte (o + 1)).toNat <<< (8 * lane ord 4 1) +
        (s.readByte (o + 2)).toNat <<< (8 * lane ord 4 2) + (s.readByte (o + 3)).toNat <<< (8 * lane ord 4 3) := by
  simp only [loadValue, List.range_succ, List.range_zero, List.nil_append, List.cons_append, List.map_cons,
    List.map_nil, List.sum_cons, List.sum_nil, Nat.add_zero]
  omega

theorem loadValue_lsbf_four :
    loadValue .lsbf 4 o s =
      (s.readByte (o + 3) ++ s.readByte (o + 2) ++ s.readByte (o + 1) ++ s.readByte o).toNat := by
  rw [toNat_append_four, loadValue_four]
  simp only [lane, Nat.mul_zero, Nat.shiftLeft_zero, Nat.reduceMul]
  omega

theorem loadValue_msbf_four :
    loadValue .msbf 4 o s =
      (s.readByte o ++ s.readByte (o + 1) ++ s.readByte (o + 2) ++ s.readByte (o + 3)).toNat := by
  rw [toNat_append_four, loadValue_four]
  simp only [lane, Nat.reduceSub, Nat.mul_zero, Nat.shiftLeft_zero, Nat.reduceMul]

end loadValue

section f16
variable (ord : Order) (o : Nat) (ip sf : Half) (s : State)

theorem f16Put_frame : f16Put ord o ip sf s = { s with mem := (f16Put ord o ip sf s).mem } :=
  (storeValue_frame ord 2 (o + 2) sf.toNat (storeValue ord 2 o ip.toNat s)).trans (by simp [f16Put])

@[simp] theorem f16Put_cmd : (f16Put ord o ip sf s).cmd = s.cmd := by rw [f16Put_frame]
@[simp] theorem f16Put_din : (f16Put ord o ip sf s).din = s.din := by rw [f16Put_frame]
@[simp] theorem f16Put_dout : (f16Put ord o ip sf s).dout = s.dout := by rw [f16Put_frame]
@[simp] theorem f16Put_raw : (f16Put ord o ip sf s).raw = s.raw := by rw [f16Put_frame]
@[simp] theorem f16Put_status : (f16Put ord o ip sf s).status = s.status := by rw [f16Put_frame]
@[simp] theorem f16Put_cfg : (f16Put ord o ip sf s).cfg = s.cfg := by rw [f16Put_frame]
@[simp] theorem f16Put_resets : (f16Put ord o ip sf s).resets = s.resets := by rw [f16Put_frame]
@[simp] theorem f16Put_host : (f16Put ord o ip sf s).host = s.host := by rw [f16Put_frame]
@[simp] theorem f16Put_answer : (f16Put ord o ip sf s).answer = s.answer := by rw [f16Put_frame]
@[simp] theorem f16Put_unlisted : (f16Put ord o ip sf s).unlisted = s.unlisted := by rw [f16Put_frame]; rfl

/-- F16Put writes IP's lanes at o and SF's at o+2, and nothing else (41_fixed_point.md R130, R135). -/
theorem f16Put_readByte (a : Nat) :
    (f16Put ord o ip sf s).readByte a =
      if o ≤ a ∧ a < o + 2 then laneByte ord 2 (a - o) ip.toNat
      else if o + 2 ≤ a ∧ a < o + 4 then laneByte ord 2 (a - (o + 2)) sf.toNat
      else s.readByte a := by
  rw [f16Put, storeValue_readByte, storeValue_readByte]
  by_cases h1 : o + 2 ≤ a ∧ a < o + 2 + 2
  · rw [if_pos h1, if_neg (by omega), if_pos (by omega)]
  · rw [if_neg h1]
    by_cases h2 : o ≤ a ∧ a < o + 2
    · rw [if_pos h2, if_pos h2]
    · rw [if_neg h2, if_neg h2, if_neg (by omega)]

variable {s}

theorem f16Put_wf (h : Memory.wf s.unlisted s.mem) : Memory.wf s.unlisted (f16Put ord o ip sf s).mem := by
  have h1 := storeValue_wf ord 2 o ip.toNat h
  have := storeValue_wf ord 2 (o + 2) sf.toNat (s := storeValue ord 2 o ip.toNat s) (by simpa using h1)
  simpa [f16Put] using this

theorem f16Put_mem {c : Host.Cell} (h : c ∈ (f16Put ord o ip sf s).mem) :
    (o ≤ c.1 ∧ c.1 < o + 4) ∨ c ∈ s.mem := by
  rcases storeValue_mem _ _ _ _ h with h | h
  · exact .inl (by omega)
  · exact (storeValue_mem _ _ _ _ h).imp (fun h => by omega) id

/-- In the canonical form, F16Put of the fields that stand there changes nothing. -/
theorem f16Put_self (h : Memory.wf s.unlisted s.mem)
    (hi : ∀ j, j < 2 → s.readByte (o + j) = laneByte ord 2 j ip.toNat)
    (hs : ∀ j, j < 2 → s.readByte (o + 2 + j) = laneByte ord 2 j sf.toNat) : f16Put ord o ip sf s = s := by
  rw [f16Put, storeValue_self ord 2 o _ h hi, storeValue_self ord 2 (o + 2) _ h hs]

/-- F16Get looks at the four bytes of its range and at nothing else. -/
theorem f16Get_congr {s t : State} (h : ∀ k, k < 4 → t.readByte (o + k) = s.readByte (o + k)) :
    f16GetIp ord o t = f16GetIp ord o s ∧ f16GetSf ord o t = f16GetSf ord o s := by
  have hip := loadValue_congr o ord 2 (s := s) (t := t) fun k hk => h k (by omega)
  have hsf := loadValue_congr (o + 2) ord 2 (s := s) (t := t) fun k hk => by
    rw [Nat.add_assoc]
    exact h (2 + k) (by omega)
  simp only [f16GetIp, f16GetSf, hip, hsf, and_self]

end f16

end Sys2Proof.Machine
end

