-- ==== Sys2Proof/Laws/Commands.lean ====
section
/-! SUPPORT. STATUS words, and each command as one equation: what it answers in bounds and out of bounds. -/

namespace Sys2Proof.Machine

section status
variable (fw pl : Bool) (e : Code)

@[simp] theorem statusCode_statusWord : statusCode (statusWord fw pl e) = e.bits := by
  cases fw <;> cases pl <;> cases e <;> rfl

@[simp] theorem statusPl_statusWord : statusPl (statusWord fw pl e) = pl := by
  cases fw <;> cases pl <;> cases e <;> rfl

@[simp] theorem statusFw_statusWord : statusFw (statusWord fw pl e) = fw := by
  cases fw <;> cases pl <;> cases e <;> rfl

@[simp] theorem statusReserved_statusWord : statusReserved (statusWord fw pl e) = 0#26 := by
  cases fw <;> cases pl <;> cases e <;> rfl

/-- An error's STATUS is its code alone (60_exceptions.md R163). -/
theorem statusWord_raise : statusWord false false e = e.bits.setWidth 32 := by cases e <;> rfl

theorem statusLegal_raise : StatusLegal (statusWord false false e) := by
  cases e <;> simp [StatusLegal, Code.bits]

theorem statusLegal_complete : StatusLegal (statusWord fw pl .ok) := by simp [StatusLegal, Code.bits]

end status

theorem bounded_inside {o w : Nat} {s : State} {r : Result} (h : o + w ≤ s.cfg.bufLen) : bounded o w s r = r :=
  if_neg (by omega)

theorem bounded_outside {o w : Nat} {s : State} {r : Result} (h : s.cfg.bufLen < o + w) :
    bounded o w s r = raise .oob s := if_pos h

section exec
variable {i : Instr} {s : State}

/-- A command whose range is not inside the buffer: OOB (20_memory.md R52). -/
theorem exec_outside (h : s.cfg.bufLen < i.offset + width i) :
    exec i s = .next (s.setStatus (statusWord false false .oob)) := by
  cases i <;> exact bounded_outside h

/-- An integer encode in bounds (40_byte_order.md R100 to R103). -/
theorem exec_intEncode (hi : isIntEncode i = true) (h : i.offset + width i ≤ s.cfg.bufLen) :
    exec i s = .next
      ((storeValue (order i) (width i) i.offset (if width i = 2 then s.din16.toNat else s.din32.toNat) s).setStatus
        (statusWord false false .ok)) := by
  cases i
  case enc16L | enc16M | enc32L | enc32M => exact bounded_inside h
  all_goals cases hi

/-- An integer decode in bounds (40_byte_order.md R104 to R107). -/
theorem exec_intDecode (hi : isDecode i = true) (hf : isF16 i = false) (h : i.offset + width i ≤ s.cfg.bufLen) :
    exec i s = .next
      ((s.setDout (BitVec.ofNat 64 (loadValue (order i) (width i) i.offset s))).setStatus
        (statusWord false false .ok)) := by
  cases i
  case dec16L | dec16M | dec32L | dec32M => exact bounded_inside h
  all_goals first | cases hi; done | cases hf

/-- An F16 encode in bounds that F16Split rejects (41_fixed_point.md R140). -/
theorem exec_f16Encode_range (hi : isF16Encode i = true) (h : i.offset + width i ≤ s.cfg.bufLen)
    (hr : f16Split s.cfg s.din = none) : exec i s = .next (s.setStatus (statusWord false false .range)) := by
  cases i
  case encf16L | encf16M =>
    refine (bounded_inside h).trans ?_
    rw [hr]; rfl
  all_goals cases hi

/-- An F16 encode in bounds that F16Split accepts (41_fixed_point.md R140). -/
theorem exec_f16Encode_ok (hi : isF16Encode i = true) (h : i.offset + width i ≤ s.cfg.bufLen) {r : F16Fields}
    (hr : f16Split s.cfg s.din = some r) :
    exec i s = .next
      (((f16Put (order i) i.offset r.ip r.sf s).setRaw (r.ip ++ r.sf)).setStatus (statusWord r.fw r.pl .ok)) := by
  cases i
  case encf16L | encf16M =>
    refine (bounded_inside h).trans ?_
    rw [hr]; rfl
  all_goals cases hi

/-- An F16 decode in bounds (41_fixed_point.md R142). -/
theorem exec_f16Decode (hi : isDecode i = true) (hf : isF16 i = true) (h : i.offset + width i ≤ s.cfg.bufLen) :
    exec i s = .next
      (((s.setDout
        (f16Join s.cfg.arith (f16GetIp (order i) i.offset s) (f16GetSf (order i) i.offset s))).setRaw
        (f16GetIp (order i) i.offset s ++ f16GetSf (order i) i.offset s)).setStatus (statusWord false false .ok)) := by
  cases i
  case decf16L | decf16M => exact bounded_inside h
  all_goals first | cases hi; done | cases hf

/-- The four shapes of a command: every command is of exactly one. -/
theorem command_shape (i : Instr) :
    (isIntEncode i = true ∧ isDecode i = false ∧ isF16 i = false ∧ isF16Encode i = false) ∨
    (isDecode i = true ∧ isF16 i = false ∧ isIntEncode i = false ∧ isF16Encode i = false) ∨
    (isF16Encode i = true ∧ isF16 i = true ∧ isDecode i = false ∧ isIntEncode i = false ∧ width i = 4) ∨
    (isDecode i = true ∧ isF16 i = true ∧ isIntEncode i = false ∧ isF16Encode i = false ∧ width i = 4) := by
  cases i <;> simp [isIntEncode, isDecode, isF16, isF16Encode, width]

end exec

/-- What a command answers: OOB out of bounds, RANGE for an F16 encode that F16Split rejects, and otherwise its effect with
CODE = OK. One lemma for all twelve (20_memory.md R52, 60_exceptions.md R163). -/
theorem exec_next {i : Instr} {s t : State} (h : exec i s = .next t) :
    (s.cfg.bufLen < i.offset + width i ∧ t = (s.setStatus (statusWord false false .oob))) ∨
    (i.offset + width i ≤ s.cfg.bufLen ∧
      ((isIntEncode i = true ∧ t =
          (storeValue (order i) (width i) i.offset (if width i = 2 then s.din16.toNat else s.din32.toNat) s).setStatus
            (statusWord false false .ok)) ∨
       (isDecode i = true ∧ isF16 i = false ∧ t =
          (s.setDout (BitVec.ofNat 64 (loadValue (order i) (width i) i.offset s))).setStatus
            (statusWord false false .ok)) ∨
       (isF16Encode i = true ∧ f16Split s.cfg s.din = none ∧ t = (s.setStatus (statusWord false false .range))) ∨
       (isF16Encode i = true ∧ ∃ r, f16Split s.cfg s.din = some r ∧ t =
          ((f16Put (order i) i.offset r.ip r.sf s).setRaw (r.ip ++ r.sf)).setStatus (statusWord r.fw r.pl .ok)) ∨
       (isDecode i = true ∧ isF16 i = true ∧ t =
          ((s.setDout
            (f16Join s.cfg.arith (f16GetIp (order i) i.offset s) (f16GetSf (order i) i.offset s))).setRaw
            (f16GetIp (order i) i.offset s ++ f16GetSf (order i) i.offset s)).setStatus (statusWord false false .ok)))) := by
  by_cases hb : s.cfg.bufLen < i.offset + width i
  · rw [exec_outside hb] at h
    exact .inl ⟨hb, (Host.Outcome.next.inj h).symm⟩
  · have hin : i.offset + width i ≤ s.cfg.bufLen := by omega
    refine .inr ⟨hin, ?_⟩
    rcases command_shape i with hs | hs | hs | hs
    · rw [exec_intEncode hs.1 hin] at h
      exact .inl ⟨hs.1, (Host.Outcome.next.inj h).symm⟩
    · rw [exec_intDecode hs.1 hs.2.1 hin] at h
      exact .inr (.inl ⟨hs.1, hs.2.1, (Host.Outcome.next.inj h).symm⟩)
    · cases hf : f16Split s.cfg s.din with
      | none =>
        rw [exec_f16Encode_range hs.1 hin hf] at h
        exact .inr (.inr (.inl ⟨hs.1, rfl, (Host.Outcome.next.inj h).symm⟩))
      | some r =>
        rw [exec_f16Encode_ok hs.1 hin hf] at h
        exact .inr (.inr (.inr (.inl ⟨hs.1, r, rfl, (Host.Outcome.next.inj h).symm⟩)))
    · rw [exec_f16Decode hs.1 hs.2.1 hin] at h
      exact .inr (.inr (.inr (.inr ⟨hs.1, hs.2.1, (Host.Outcome.next.inj h).symm⟩)))

/-- The words of a claim about two stored bytes. -/
theorem stores_two {s t : State} {o : Nat} {b0 b1 : Byte} :
    Stores s t o [b0, b1] ↔
      t.readByte o = b0 ∧ t.readByte (o + 1) = b1 ∧
        ∀ a, a < o ∨ o + 2 ≤ a → t.readByte a = s.readByte a := by
  constructor
  · intro h
    exact ⟨by rw [h o]; simp, by rw [h (o + 1)]; simp, fun a ha => by rw [h a, if_neg (by simp; omega)]⟩
  · rintro ⟨h0, h1, h2⟩ a
    by_cases ha : o ≤ a ∧ a < o + 2
    · obtain rfl | rfl : a = o ∨ a = o + 1 := by omega
      · simp [h0]
      · simp [h1]
    · rw [if_neg (by simpa using ha), h2 a (by omega)]

/-- The words of a claim about four stored bytes. -/
theorem stores_four {s t : State} {o : Nat} {b0 b1 b2 b3 : Byte} :
    Stores s t o [b0, b1, b2, b3] ↔
      t.readByte o = b0 ∧ t.readByte (o + 1) = b1 ∧ t.readByte (o + 2) = b2 ∧ t.readByte (o + 3) = b3 ∧
        ∀ a, a < o ∨ o + 4 ≤ a → t.readByte a = s.readByte a := by
  constructor
  · intro h
    exact ⟨by rw [h o]; simp, by rw [h (o + 1)]; simp, by rw [h (o + 2)]; simp, by rw [h (o + 3)]; simp,
      fun a ha => by rw [h a, if_neg (by simp; omega)]⟩
  · rintro ⟨h0, h1, h2, h3, h4⟩ a
    by_cases ha : o ≤ a ∧ a < o + 4
    · obtain rfl | rfl | rfl | rfl : a = o ∨ a = o + 1 ∨ a = o + 2 ∨ a = o + 3 := by omega
      · simp [h0]
      · simp [h1]
      · simp [h2]
      · simp [h3]
    · rw [if_neg (by simpa using ha), h4 a (by omega)]

/-- The invariant of a state that keeps the configuration and the draws of another. -/
theorem inv_of_same_draws {s t : State} (hs : s.Inv) (hc : t.cfg = s.cfg) (hr : t.resets = s.resets)
    (hw : Memory.wf s.unlisted t.mem) (hin : ∀ c ∈ t.mem, c.1 < s.cfg.bufLen) (hst : StatusLegal t.status) :
    t.Inv := by
  have hu : t.unlisted = s.unlisted := by simp [State.unlisted, hc, hr]
  exact ⟨hc ▸ hs.cfg, hu ▸ hw, hc ▸ hin, hst⟩

end Sys2Proof.Machine
end

