-- ==== Sys2Proof/Laws/Decode.lean ====
section
/-! SUPPORT. The fields of a command word `{OFFSET, CMD[15:0]}`, and when decoding rejects a word. -/

namespace Sys2Proof

section fields
variable (o c : Half)

theorem toNat_word : (o ++ c).toNat = o.toNat * 65536 + c.toNat := by
  rw [BitVec.toNat_append, ← Nat.shiftLeft_add_eq_or_of_lt c.isLt, Nat.shiftLeft_eq]

theorem cmdKind_word : cmdKind (o ++ c) = c.extractLsb' 0 2 := by
  apply BitVec.eq_of_toNat_eq
  rw [cmdKind, BitVec.extractLsb'_toNat, BitVec.extractLsb'_toNat, toNat_word]
  simp only [Nat.shiftRight_zero]
  omega

theorem cmdRsv_word : cmdRsv (o ++ c) = c.extractLsb' 4 12 := by
  have := c.isLt
  apply BitVec.eq_of_toNat_eq
  rw [cmdRsv, BitVec.extractLsb'_toNat, BitVec.extractLsb'_toNat, toNat_word]
  simp only [Nat.shiftRight_eq_div_pow]
  omega

theorem cmdOffset_word : cmdOffset (o ++ c) = o.toNat := by
  have := c.isLt
  have := o.isLt
  rw [cmdOffset, BitVec.extractLsb'_toNat, toNat_word]
  simp only [Nat.shiftRight_eq_div_pow]
  omega

theorem getLsbD_word (i : Nat) (h : i < 16) : (o ++ c).getLsbD i = c.getLsbD i := by
  rw [BitVec.getLsbD_append, if_pos h]

theorem cmdDir_word : cmdDir (o ++ c) = c.getLsbD 2 := getLsbD_word o c 2 (by omega)

theorem cmdOrd_word : cmdOrd (o ++ c) = c.getLsbD 3 := getLsbD_word o c 3 (by omega)

end fields

/-- Every word is its OFFSET and its low half. -/
theorem word_eq_append (w : Word) : w = w.extractLsb' 16 16 ++ w.extractLsb' 0 16 := by
  have := w.isLt
  apply BitVec.eq_of_toNat_eq
  rw [toNat_word, BitVec.extractLsb'_toNat, BitVec.extractLsb'_toNat]
  simp only [Nat.shiftRight_eq_div_pow]
  omega

/-- A KIND is one of four. -/
theorem kind_cases (k : BitVec 2) : k = 0#2 ∨ k = 1#2 ∨ k = 2#2 ∨ k = 3#2 := by revert k; decide

/-- Decoding rejects a word exactly by the check of 30_encoding.md R76. -/
theorem decode_eq_error (w : Word) :
    (∃ e, decode w = .error e) ↔ w.extractLsb' 0 2 = 0#2 ∨ w.extractLsb' 4 12 ≠ 0#12 := by
  unfold decode cmdKind cmdRsv kindOf
  generalize w.extractLsb' 0 2 = k
  rcases kind_cases k with rfl | rfl | rfl | rfl <;> simp <;> split_ifs <;> simp_all

end Sys2Proof
end

