-- ==== Sys2Proof/Laws/PerInstr.lean ====
section
/-! SUPPORT. What holds of every instruction as syntax, one lemma per constructor. -/

namespace Sys2Proof.Laws.EncodedWordIsLegal

/-- The word of a well-formed command passes the check of 30_encoding.md R76, and its OFFSET field is the offset (R71). -/
def Statement (i : Instr) : Prop :=
  i.WellFormed → ¬ Machine.IllegalWord (encode i) ∧ cmdOffset (encode i) = i.offset

/-- The fields of a word `{o[15:0], c}` with a legal low half `c`. -/
theorem of_opcode {o : Nat} (c : Half) (hk : c.extractLsb' 0 2 ≠ 0#2) (hr : c.extractLsb' 4 12 = 0#12)
    (ho : o < 65536) : ¬ Machine.IllegalWord (BitVec.ofNat 16 o ++ c) ∧ cmdOffset (BitVec.ofNat 16 o ++ c) = o := by
  refine ⟨?_, ?_⟩
  · rintro (h | h)
    · exact hk ((cmdKind_word _ c).symm.trans h)
    · exact h ((cmdRsv_word _ c).trans hr)
  · rw [cmdOffset_word, BitVec.toNat_ofNat, Nat.mod_eq_of_lt ho]

theorem enc16L (o : Nat) : Statement (.enc16L o) := of_opcode 0x0001#16 (by decide) (by decide)
theorem enc16M (o : Nat) : Statement (.enc16M o) := of_opcode 0x0009#16 (by decide) (by decide)
theorem enc32L (o : Nat) : Statement (.enc32L o) := of_opcode 0x0002#16 (by decide) (by decide)
theorem enc32M (o : Nat) : Statement (.enc32M o) := of_opcode 0x000A#16 (by decide) (by decide)
theorem dec16L (o : Nat) : Statement (.dec16L o) := of_opcode 0x0005#16 (by decide) (by decide)
theorem dec16M (o : Nat) : Statement (.dec16M o) := of_opcode 0x000D#16 (by decide) (by decide)
theorem dec32L (o : Nat) : Statement (.dec32L o) := of_opcode 0x0006#16 (by decide) (by decide)
theorem dec32M (o : Nat) : Statement (.dec32M o) := of_opcode 0x000E#16 (by decide) (by decide)
theorem encf16L (o : Nat) : Statement (.encf16L o) := of_opcode 0x0003#16 (by decide) (by decide)
theorem encf16M (o : Nat) : Statement (.encf16M o) := of_opcode 0x000B#16 (by decide) (by decide)
theorem decf16L (o : Nat) : Statement (.decf16L o) := of_opcode 0x0007#16 (by decide) (by decide)
theorem decf16M (o : Nat) : Statement (.decf16M o) := of_opcode 0x000F#16 (by decide) (by decide)

end Sys2Proof.Laws.EncodedWordIsLegal
end

