-- ==== Sys2Proof/Laws/Scaler.lean ====
section
/-! SUPPORT. When F16Split returns RANGE, and what it returns otherwise. -/

namespace Sys2Proof.Machine

/-- F16Split returns RANGE exactly for the causes of 60_exceptions.md R161. -/
theorem f16Split_eq_none (c : Cfg) (d : Dword) : f16Split c d = none ↔ RangeCause c d := by
  unfold f16Split RangeCause
  by_cases h1 : isNaN d = true
  · simp [h1]
  by_cases h2 : isInf d = true
  · simp [h2]
  simp only [h1, h2, Bool.or_self, Bool.false_eq_true, if_false, false_or]
  by_cases h3 : intRejected c (integerPart c.negMode (real d))
  · rw [if_pos h3]; exact iff_of_true rfl (.inl ⟨h3.2, h3.1⟩)
  rw [if_neg h3]
  by_cases h4 : fracRejected c (scaledFraction c (real d))
  · rw [if_pos h4]; exact iff_of_true rfl (.inr ⟨h4.2, h4.1⟩)
  rw [if_neg h4]
  refine iff_of_false (by simp) ?_
  rintro (h | h)
  · exact h3 ⟨h.2, h.1⟩
  · exact h4 ⟨h.2, h.1⟩

/-- The fields F16Split returns (41_fixed_point.md R131). -/
theorem f16Split_eq_some {c : Cfg} {d : Dword} {r : F16Fields} (h : f16Split c d = some r) :
    isFinite d = true ∧ ¬ RangeCause c d ∧
      r = f16FieldsOf (real d) (integerPart c.negMode (real d)) (scaledFraction c (real d)) := by
  have hn : ¬ RangeCause c d := fun hr => by rw [(f16Split_eq_none c d).2 hr] at h; cases h
  have hfin : isFinite d = true := by
    by_contra hf
    have he : expField d = 0x7FF := by simpa [isFinite] using hf
    by_cases hz : fracField d = 0
    · exact hn (.inr (.inl (by simp [isInf, he, hz])))
    · exact hn (.inl (by simp [isNaN, he, hz]))
  refine ⟨hfin, hn, ?_⟩
  unfold f16Split at h
  by_cases h1 : isNaN d || isInf d
  · rw [if_pos h1] at h; cases h
  rw [if_neg h1] at h
  simp only at h
  split_ifs at h
  exact (Option.some.inj h).symm

end Sys2Proof.Machine
end

