-- ==== Sys2Proof/Laws/Step.lean ====
section
/-! SUPPORT. The step and the issue of a command, one equation per case. -/

namespace Sys2Proof.Machine

/-- The step of a host with an action to come. -/
theorem step_cons {s : State} {a : HostAction} {rest : List HostAction} (h : s.host = a :: rest) :
    step s = hostAct a { s with host := rest } := by
  unfold step
  rw [h]

theorem issue_ok {s : State} {i : Instr} (h : decode s.cmd = .ok i) : issue s = exec i s := by
  unfold issue
  rw [h]

theorem issue_error {s : State} {e : Illegal} (h : decode s.cmd = .error e) : issue s = raise .illegal s := by
  unfold issue
  rw [h]

end Sys2Proof.Machine
end

