-- ==== Sys2Proof/Tests/Slice0.lean ====
section
/-! SUPPORT. Tests with results taken from the spec (95_test_vectors.md unless a comment names another file). -/

namespace Sys2Proof.Tests

set_option Elab.async false

open Sys2Proof Sys2Proof.Machine

/-! ## Well-formedness: each check refuses an ill-formed term (30_encoding.md R71, R79, R80; 00_scope.md R5) -/

theorem test_offset_bound : Instr.WellFormed (.decf16M 65535) ∧ ¬ Instr.WellFormed (.enc16L 65536) := by decide

theorem test_bufLen_bound : Cfg.WellFormed { bufLen := 65536 } ∧ ¬ Cfg.WellFormed { bufLen := 65537 } := by decide

theorem test_lines_refused :
    (HostLine.command (.dec16L 65536)).wellFormed = false ∧
    (HostLine.encodeInt (.enc16L 0) 65536).wellFormed = false ∧
    (HostLine.encodeInt (.dec16L 0) 0).wellFormed = false ∧
    (HostLine.encodeInt (.enc32L 65536) 0).wellFormed = false ∧
    (HostLine.encodeF16 (.enc32L 0) (.b64 0#64)).wellFormed = false ∧
    (HostLine.encodeF16 (.encf16L 65536) (.b64 0#64)).wellFormed = false ∧
    (HostLine.rreg 6).wellFormed = false ∧
    (HostLine.dotCmd 0x00000001#32).wellFormed = false ∧
    (HostLine.bswap16 65536 0).wellFormed = false ∧ (HostLine.bswap16 0 65536).wellFormed = false ∧
    (HostLine.bswap32 65536 0).wellFormed = false ∧ (HostLine.bswap32 0 65536).wellFormed = false := by decide

/-! ## Decoding: each word written bit by bit from the encoding column of the opcode table (30_encoding.md R70, R74) -/

theorem test_decode_integer :
    decode 0b00000000000000110000000000000001#32 = .ok (.enc16L 3) ∧
    decode 0b00000000000000110000000000001001#32 = .ok (.enc16M 3) ∧
    decode 0b11111111111111000000000000000010#32 = .ok (.enc32L 65532) ∧
    decode 0b00000000000000000000000000001010#32 = .ok (.enc32M 0) ∧
    decode 0b00000000000001110000000000000101#32 = .ok (.dec16L 7) ∧
    decode 0b11111111111111110000000000001101#32 = .ok (.dec16M 65535) ∧
    decode 0b00000000000001000000000000000110#32 = .ok (.dec32L 4) ∧
    decode 0b00000000000000010000000000001110#32 = .ok (.dec32M 1) := by decide

theorem test_decode_f16 :
    decode 0b00000000000001010000000000000011#32 = .ok (.encf16L 5) ∧
    decode 0b00000000000001110000000000001011#32 = .ok (.encf16M 7) ∧
    decode 0b00000000000001010000000000000111#32 = .ok (.decf16L 5) ∧
    decode 0b11111111111111110000000000001111#32 = .ok (.decf16M 65535) := by decide

/-- V-ENC-1 to V-ENC-6. -/
theorem test_decode_illegal :
    decode 0x00000000#32 = .error .reservedKind ∧ decode 0x00000004#32 = .error .reservedKind ∧
    decode 0x00000008#32 = .error .reservedKind ∧ decode 0x0000000C#32 = .error .reservedKind ∧
    decode 0x00000011#32 = .error .reservedBits ∧ decode 0x00010100#32 = .error .reservedKind ∧
    decode 0xFFFF8001#32 = .error .reservedBits := by decide

theorem test_decodeTableWord :
    decodeTableWord 32 0x0004000E = some (.dec32M 4) ∧ decodeTableWord 32 0x00000010 = none := by decide

/-! ## One command on a small state -/

/-- The nonzero bytes of a list as a memory. -/
def listed : (i : Nat) → List Byte → Memory
  | _, [] => []
  | i, b :: bs => if b = 0#8 then listed (i + 1) bs else (i, b) :: listed (i + 1) bs

/-- A unit with a buffer of eight bytes that reset clears, these bytes in it, and this DIN. -/
def unit (bytes : List Byte) (din : Dword) : State :=
  { State.reset with cfg := { bufLen := 8, bufReset := .zero }, mem := listed 0 bytes, din := din }

/-- What a test looks at: DOUT, RAW, STATUS and the eight bytes. -/
structure Seen where
  dout : Dword
  raw : Word
  status : Word
  bytes : List Byte
  deriving DecidableEq, Repr

/-- The registers and the eight bytes after a result. -/
def seen : Result → Option Seen
  | .next t => some
      { dout := t.dout, raw := t.raw, status := t.status
        bytes := [t.readByte 0, t.readByte 1, t.readByte 2, t.readByte 3, t.readByte 4, t.readByte 5, t.readByte 6,
          t.readByte 7] }
  | .fault _ => none
  | .refused _ => none

/-- V-INT-3, and V-INT-20: only two bytes of an earlier range change. -/
theorem test_enc16L :
    seen (exec (.enc16L 0) (unit [] 0x123456789ABCDEF0#64)) =
      some ⟨0#64, 0#32, 0#32, [0xF0#8, 0xDE#8, 0#8, 0#8, 0#8, 0#8, 0#8, 0#8]⟩ ∧
    seen (exec (.enc16L 0) (unit [0x04#8, 0x03#8, 0x02#8, 0x01#8] 0xBEEF#64)) =
      some ⟨0#64, 0#32, 0#32, [0xEF#8, 0xBE#8, 0x02#8, 0x01#8, 0#8, 0#8, 0#8, 0#8]⟩ := by decide

/-- V-INT-7: o = 7 and o = 0xFFFF. -/
theorem test_enc16L_oob :
    seen (exec (.enc16L 7) (unit [] 0x1234#64)) =
      some ⟨0#64, 0#32, 1#32, [0#8, 0#8, 0#8, 0#8, 0#8, 0#8, 0#8, 0#8]⟩ ∧
    seen (exec (.enc16L 65535) (unit [] 0x1234#64)) =
      some ⟨0#64, 0#32, 1#32, [0#8, 0#8, 0#8, 0#8, 0#8, 0#8, 0#8, 0#8]⟩ := by decide

/-- V-INT-5. -/
theorem test_enc16M : seen (exec (.enc16M 3) (unit [] 0x0102#64)) =
    some ⟨0#64, 0#32, 0#32, [0#8, 0#8, 0#8, 0x01#8, 0x02#8, 0#8, 0#8, 0#8]⟩ := by decide

/-- V-INT-12: o = 4, and o = 5. -/
theorem test_enc32L :
    seen (exec (.enc32L 4) (unit [] 0x11223344#64)) =
      some ⟨0#64, 0#32, 0#32, [0#8, 0#8, 0#8, 0#8, 0x44#8, 0x33#8, 0x22#8, 0x11#8]⟩ ∧
    seen (exec (.enc32L 5) (unit [] 0x11223344#64)) =
      some ⟨0#64, 0#32, 1#32, [0#8, 0#8, 0#8, 0#8, 0#8, 0#8, 0#8, 0#8]⟩ := by decide

/-- V-INT-11. -/
theorem test_enc32M : seen (exec (.enc32M 0) (unit [] 0x123456789ABCDEF0#64)) =
    some ⟨0#64, 0#32, 0#32, [0x9A#8, 0xBC#8, 0xDE#8, 0xF0#8, 0#8, 0#8, 0#8, 0#8]⟩ := by decide

/-- V-INT-13. -/
theorem test_dec16L : (seen (exec (.dec16L 0) (unit [0x1E#8, 0x29#8] 0#64))).map (·.dout) = some 0x291E#64 := by decide

/-- V-INT-13. -/
theorem test_dec16M : (seen (exec (.dec16M 0) (unit [0x1E#8, 0x29#8] 0#64))).map (·.dout) = some 0x1E29#64 := by decide

/-- V-INT-14: DOUT keeps the value of an earlier decode. -/
theorem test_dec16L_oob : seen (exec (.dec16L 7) { unit [] 0#64 with dout := 0x1E29#64 }) =
    some ⟨0x1E29#64, 0#32, 1#32, [0#8, 0#8, 0#8, 0#8, 0#8, 0#8, 0#8, 0#8]⟩ := by decide

/-- V-INT-17. -/
theorem test_dec32L : (seen (exec (.dec32L 1)
    (unit [0x00#8, 0x11#8, 0x22#8, 0x33#8, 0x44#8, 0x55#8, 0x66#8, 0x77#8] 0#64))).map (·.dout) =
    some 0x44332211#64 := by decide

/-- V-INT-17. -/
theorem test_dec32M : (seen (exec (.dec32M 1)
    (unit [0x00#8, 0x11#8, 0x22#8, 0x33#8, 0x44#8, 0x55#8, 0x66#8, 0x77#8] 0#64))).map (·.dout) =
    some 0x11223344#64 := by decide

/-- L1-5: 12.34567. -/
theorem test_encf16L : seen (exec (.encf16L 0) (unit [] 0x4028B0FBA8826AA9#64)) =
    some ⟨0#64, 0x000C8707#32, 0x10#32, [0x0C#8, 0x00#8, 0x07#8, 0x87#8, 0#8, 0#8, 0#8, 0#8]⟩ := by decide +kernel

/-- V-F16-20 and V-F16-25: a NaN is RANGE, and OOB beats it. -/
theorem test_encf16L_errors :
    seen (exec (.encf16L 4) { unit [0xAA#8] 0x7FF8000000000000#64 with raw := 5#32 }) =
      some ⟨0#64, 5#32, 2#32, [0xAA#8, 0#8, 0#8, 0#8, 0#8, 0#8, 0#8, 0#8]⟩ ∧
    (seen (exec (.encf16L 5) (unit [] 0x7FF8000000000000#64))).map (·.status) = some 1#32 := by decide +kernel

/-- V-F16-13: -1.5 under TRUNC. -/
theorem test_encf16M : seen (exec (.encf16M 0) (unit [] 0xBFF8000000000000#64)) =
    some ⟨0#64, 0xFFFFC350#32, 0x10#32, [0xFF#8, 0xFF#8, 0xC3#8, 0x50#8, 0#8, 0#8, 0#8, 0#8]⟩ := by decide +kernel

/-- V-F16-11: 32767.99999, the fraction wraps. -/
theorem test_encf16M_wrap : seen (exec (.encf16M 0) (unit [] 0x40DFFFFFFFD60E95#64)) =
    some ⟨0#64, 0x7FFF869F#32, 0x30#32, [0x7F#8, 0xFF#8, 0x86#8, 0x9F#8, 0#8, 0#8, 0#8, 0#8]⟩ := by decide +kernel

/-- V-F16D-2. -/
theorem test_decf16L : seen (exec (.decf16L 0) (unit [0x00#8, 0x80#8, 0xFF#8, 0xFF#8] 0#64)) =
    some ⟨0xC0DFFFD60EBEDFA4#64, 0x8000FFFF#32, 0#32, [0#8, 0x80#8, 0xFF#8, 0xFF#8, 0#8, 0#8, 0#8, 0#8]⟩ := by
  decide +kernel

/-- V-F16D-13. -/
theorem test_decf16M : (seen (exec (.decf16M 0) (unit [0xFF#8, 0xFF#8, 0x50#8, 0xC3#8] 0#64))).map
    (fun x => (x.dout, x.raw)) = some (0xBFE9624DD2F1A9FC#64, 0xFFFF50C3#32) := by decide +kernel

/-! ## The scaler under the other settings -/

/-- V-F16-8: 0.65535 under either ARITH. -/
theorem test_split_arith :
    f16Split { bufLen := 8 } 0x3FE4F8A0902DE00D#64 = some ⟨0x0000#16, 0xFFFF#16, true, false⟩ ∧
    f16Split { bufLen := 8, arith := .exact } 0x3FE4F8A0902DE00D#64 = some ⟨0x0000#16, 0xFFFE#16, true, false⟩ := by
  decide +kernel

/-- V-F16-19: -2^-60 under FLOOR with either ARITH. -/
theorem test_split_floor :
    f16Split { bufLen := 8, negMode := .floor } 0xBC30000000000000#64 = some ⟨0xFFFF#16, 0x0000#16, true, false⟩ ∧
    f16Split { bufLen := 8, negMode := .floor, arith := .exact } 0xBC30000000000000#64 =
      some ⟨0xFFFF#16, 0x869F#16, true, true⟩ := by decide +kernel

/-- V-F16-24: -40000.75 and 1e300 under INT_OVF = WRAP, and 1e300 under RANGE. -/
theorem test_split_wrap :
    f16Split { bufLen := 8, intOvf := .wrap } 0xC0E3881800000000#64 = some ⟨0x63C0#16, 0x61A8#16, true, false⟩ ∧
    f16Split { bufLen := 8, intOvf := .wrap } 0x7E37E43C8800759C#64 = some ⟨0x0000#16, 0x0000#16, true, false⟩ ∧
    f16Split { bufLen := 8 } 0x7E37E43C8800759C#64 = none := by decide +kernel

/-- V-F16-23: 0.65536 under FRAC_OVF = RANGE. -/
theorem test_split_range : f16Split { bufLen := 8, fracOvf := .range } 0x3FE4F8B588E368F1#64 = none := by decide +kernel

/-- V-F16D-6: (0x0001, 48100) under either ARITH. -/
theorem test_join_arith :
    f16Join .binary64 0x0001#16 48100#16 = 0x3FF7B22D0E560418#64 ∧
    f16Join .exact 0x0001#16 48100#16 = 0x3FF7B22D0E560419#64 := by decide +kernel

/-! ## The host port -/

/-- V-HOST-1 to V-HOST-4. -/
theorem test_host_bad_access :
    hostAct (.readReg 6) (unit [] 0#64) = .next { unit [] 0#64 with answer := some ⟨some 0#64, true⟩ } ∧
    hostAct (.writeReg 7 5#64) (unit [] 0#64) = .next { unit [] 0#64 with answer := some ⟨none, true⟩ } ∧
    hostAct (.readBuf 8) (unit [] 0#64) = .next { unit [] 0#64 with answer := some ⟨some 0#64, true⟩ } ∧
    hostAct (.writeBuf 8 0x55#64) (unit [] 0#64) = .next { unit [] 0#64 with answer := some ⟨none, true⟩ } :=
  ⟨rfl, rfl, rfl, rfl⟩

/-- V-HOST-5 and V-HOST-9. -/
theorem test_host_write :
    hostAct (.writeReg 2 0x1234#64) (unit [] 0#64) = .next { unit [] 0#64 with answer := some ⟨none, false⟩ } ∧
    (seen (hostAct (.writeBuf 3 0x1FF#64) (unit [] 0#64))).map (·.bytes) =
      some [0#8, 0#8, 0#8, 0xFF#8, 0#8, 0#8, 0#8, 0#8] := ⟨rfl, by decide⟩

/-- V-HOST-6 and V-HOST-7. -/
theorem test_cfgWord :
    readRegister (unit [] 0#64) 5 = some 0x0000000010000008#64 ∧ cfgWord { bufLen := 8 } = 0x00000008#32 ∧
    cfgWord ⟨65536, .floor, .exact, .wrap, .range, .zero⟩ = 0x1F010000#32 := by decide

/-- V-HOST-8: bits 63:32 of a write to CMD are ignored, and ENC32.L 0 runs. -/
theorem test_host_issue :
    (seen (hostAct (.writeReg 0 0xFFFFFFFF00000002#64) (unit [] 0x01020304#64))).map (·.bytes) =
      some [0x04#8, 0x03#8, 0x02#8, 0x01#8, 0#8, 0#8, 0#8, 0#8] := by decide

/-- V-ENC-6 by a write to CMD: ILLEGAL, not OOB. -/
theorem test_host_illegal : (seen (hostAct (.writeReg 0 0xFFFF8001#64) (unit [0xAA#8] 0#64))) =
    some ⟨0#64, 0#32, 3#32, [0xAA#8, 0#8, 0#8, 0#8, 0#8, 0#8, 0#8, 0#8]⟩ := by decide

/-- V-RST-1 and V-RST-2. -/
theorem test_reset : seen (hostAct .reset { unit [0xAA#8] 1#64 with dout := 2#64, raw := 3#32, status := 1#32 }) =
    some ⟨0#64, 0#32, 0#32, [0#8, 0#8, 0#8, 0#8, 0#8, 0#8, 0#8, 0#8]⟩ := by decide

/-- The host can run any opcode as the first command after reset: DEC16.L 0xFFFF, out of bounds. -/
theorem test_withFetchWord :
    step (State.reset.withFetchWord 32 0xFFFF0005) =
      .next { State.reset with
        cmd := 0xFFFF0005#32, status := 1#32, answer := some { data := none, herr := false } } := rfl

/-! ## Assembler lines (30_encoding.md R79, R80; L1-1, L1-5, P3, P4) -/

theorem test_parse_command :
    parseLine "ENC32.L 0, 125120100" = some (.encodeInt (.enc32L 0) 125120100) ∧
    parseLine "encode32_LSBF 0, 125120100" = some (.encodeInt (.enc32L 0) 125120100) ∧
    parseLine "DEC16.M 0xFFFF" = some (.command (.dec16M 65535)) ∧
    parseLine "ENCF16.L 4, b64(0x7FF8000000000000)" = some (.encodeF16 (.encf16L 4) (.b64 0x7FF8000000000000#64)) ∧
    parseLine "ENCF16.M 4, -12.5" = some (.encodeF16 (.encf16M 4) (.decimal true 125 1)) := by decide +kernel

theorem test_parse_refused :
    parseLine "ENC16.L 0, 65536" = none ∧ parseLine "DEC16.L 65536" = none ∧ parseLine "DEC16.L 0, 1" = none ∧
    parseLine ".cmd 0x00000001" = none ∧ parseLine "RREG 6" = none ∧ parseLine "NOP" = none := by decide +kernel

theorem test_parse_action :
    parseLine "WDIN 0x01234567" = some (.wdin 0x01234567#64) ∧ parseLine "RREG 4" = some (.rreg 4) ∧
    parseLine "BWR 0, 0x1E" = some (.bwr 0 0x1E#64) ∧ parseLine "BRD 8" = some (.brd 8) ∧
    parseLine "MOVOD" = some .movod ∧ parseLine "WCMD 0x00000002" = some (.wcmd 2#32) ∧
    parseLine ".cmd 0x00000011" = some (.dotCmd 0x11#32) ∧ parseLine "BSWAP16 0, 2" = some (.bswap16 0 2) := by
  decide +kernel

theorem test_expand :
    (HostLine.encodeInt (.enc32L 0) 125120100).expand =
      [.writeReg 1 0x0000000007752E64#64, .writeReg 0 0x00000002#64] ∧
    (HostLine.bswap16 0 2).expand = [.writeReg 0 0x00000005#64, .movod, .writeReg 0 0x00020009#64] ∧
    (HostLine.bswap32 4 4).expand = [.writeReg 0 0x00040006#64, .movod, .writeReg 0 0x0004000A#64] := by decide

/-- Decimal literals of V-F16-1, V-F16-13, V-F16-7. -/
theorem test_literals :
    (F16Literal.decimal false 1234567 5).bits = 0x4028B0FBA8826AA9#64 ∧
    (F16Literal.decimal true 15 1).bits = 0xBFF8000000000000#64 ∧
    (F16Literal.decimal false 10000001 5).bits = 0x4059000029F16B12#64 := by decide +kernel

end Sys2Proof.Tests
end

