-- ==== Sys2Proof/Tests/Witnesses0.lean ====
section
/-! SUPPORT. For each statement with hypotheses, values that meet them, at the boundaries of its clauses. The theorem
`witness_<statement>` is about the statement of that name. -/

namespace Sys2Proof.Tests

set_option Elab.async false

open Sys2Proof Sys2Proof.Machine

/-- A unit whose host has these actions to come. -/
def withHost (h : List HostAction) : State := { unit [] 0#64 with host := h }

/-- A unit with this configuration and this DIN, with nothing in the buffer. -/
def configured (c : Cfg) (din : Dword) : State := { State.reset with cfg := c, din := din }

theorem witness_DecodeOfEncodeIsIdentity : Instr.WellFormed (.encf16M 65535) := by decide

theorem witness_EncodeOfDecodeIsIdentity : decode 0xFFFF000B#32 = .ok (.encf16M 65535) := by decide

theorem witness_OpcodeMapSelectsCommands : decode 0xFFFF000F#32 = .ok (.decf16M 65535) := by decide

theorem witness_StepRunsDecodedCommand :
    (withHost [.writeReg 0 0xFFFFFFFFFFFF0001#64]).host = [.writeReg 0 0xFFFFFFFFFFFF0001#64] ∧
    decode ((0xFFFFFFFFFFFF0001#64).setWidth 32) = .ok (.enc16L 65535) ∧
    decodeTableWord 32 0xFFFF0001 = some (.enc16L 65535) := by decide

theorem witness_IllegalWordSetsOnlyStatus :
    (withHost [.writeReg 0 0xFFFF8001#64]).host = [.writeReg 0 0xFFFF8001#64] ∧
    IllegalWord ((0xFFFF8001#64).setWidth 32) ∧ IllegalWord ((0#64).setWidth 32) := by
  unfold IllegalWord
  decide

theorem witness_RegisterAccessesAnswer :
    (withHost [.readReg 5]).host = [.readReg 5] ∧ 5 ≤ 5 ∧ (withHost [.readReg 0]).host = [.readReg 0] ∧
    (withHost [.writeReg 0 0x00000001#64]).host = [.writeReg 0 0x00000001#64] ∧
    (withHost [.writeReg 1 7#64]).host = [.writeReg 1 7#64] ∧
    (withHost [.writeReg 2 7#64]).host = [.writeReg 2 7#64] ∧ 2 ≤ 2 ∧
    (withHost [.writeReg 5 7#64]).host = [.writeReg 5 7#64] := by decide

theorem witness_BufferAccessesAnswer :
    7 < (withHost [.readBuf 7]).cfg.bufLen ∧ (withHost [.readBuf 7]).host = [.readBuf 7] ∧
    (withHost [.writeBuf 7 0x1FF#64]).host = [.writeBuf 7 0x1FF#64] := by decide

theorem witness_BadAccessesAnswerHerr :
    5 < 6 ∧ (withHost [.readReg 6]).host = [.readReg 6] ∧ (withHost [.writeReg 6 1#64]).host = [.writeReg 6 1#64] ∧
    (withHost [.readBuf 8]).cfg.bufLen ≤ 8 ∧ (withHost [.readBuf 8]).host = [.readBuf 8] ∧
    (withHost [.writeBuf 8 1#64]).host = [.writeBuf 8 1#64] := by decide

theorem witness_CfgReportsConstantConfiguration :
    (∃ t, step (withHost [.writeReg 5 0#64]) = .next t) ∧ (withHost [.readReg 5]).host = [.readReg 5] ∧
    Cfg.WellFormed ⟨65536, .floor, .exact, .wrap, .range, .zero⟩ := ⟨⟨_, rfl⟩, rfl, by decide⟩

theorem witness_ResetGivesResetState :
    (withHost [.reset]).host = [.reset] ∧ (withHost [.reset]).cfg.bufReset = .zero ∧
    ({ State.reset with host := [.reset] } : State).cfg.bufReset = .unspecified := by decide

theorem witness_IdleStepChangesNothing : State.reset.host = [] := rfl

theorem witness_MovodCopiesDoutToDin : (withHost [.movod]).host = [.movod] := rfl

theorem witness_CompositesReverseBytes :
    (withHost (HostLine.bswap16 6 0).expand).host = (HostLine.bswap16 6 0).expand ++ [] ∧
    6 + 2 ≤ (withHost (HostLine.bswap16 6 0).expand).cfg.bufLen ∧
    (withHost (HostLine.bswap32 4 4).expand).host = (HostLine.bswap32 4 4).expand ++ [] ∧
    4 + 4 ≤ (withHost (HostLine.bswap32 4 4).expand).cfg.bufLen := by decide

theorem witness_EncodeLineWritesDinThenIssues :
    isIntEncode (.enc16M 6) = true ∧ 65535 < 2 ^ (8 * width (.enc16M 6)) ∧
    (withHost (HostLine.encodeInt (.enc16M 6) 65535).expand).host = (HostLine.encodeInt (.enc16M 6) 65535).expand ++ [] ∧
    isF16Encode (.encf16L 4) = true ∧
    (withHost (HostLine.encodeF16 (.encf16L 4) (.b64 1#64)).expand).host =
      (HostLine.encodeF16 (.encf16L 4) (.b64 1#64)).expand ++ [] := by decide

theorem witness_OutOfBoundsSetsOnlyStatus :
    Instr.offset (.enc16L 7) + width (.enc16L 7) > (unit [] 0#64).cfg.bufLen ∧
    (configured { bufLen := 1 } 0#64).cfg.bufLen < 2 := by decide

theorem witness_FailingCommandWritesOnlyStatus :
    ∃ t, issue { unit [] 0#64 with cmd := 0x00070001#32 } = .next t ∧ statusCode t.status ≠ 0#4 := ⟨_, rfl, by decide⟩

/-- The causes of the codes 3, 1 and 2, and none of them. -/
theorem witness_CodesFollowPriority :
    IllegalWord 0xFFFF8001#32 ∧ decode 0x00050003#32 = .ok (.encf16L 5) ∧
    Instr.offset (.encf16L 5) + width (.encf16L 5) > (unit [] 0#64).cfg.bufLen ∧
    decode 0x00040003#32 = .ok (.encf16L 4) ∧
    Instr.offset (.encf16L 4) + width (.encf16L 4) ≤ (unit [] 0#64).cfg.bufLen ∧
    RangeCause (unit [] 0x7FF0000000000000#64).cfg (unit [] 0x7FF0000000000000#64).din ∧
    ¬ RangeCause (unit [] 0#64).cfg (unit [] 0#64).din := by
  refine ⟨by unfold IllegalWord; decide, by decide, by decide, by decide, by decide,
    (f16Split_eq_none _ _).1 (by decide +kernel), fun h => ?_⟩
  have := (f16Split_eq_none _ _).2 h
  revert this
  decide +kernel

theorem witness_StatusAfterEveryCommand :
    ∃ t, issue { unit [] 0x3FEFFFFFFFFFFFFF#64 with cmd := 0x00000003#32 } = .next t ∧ statusFw t.status = true := by
  refine ⟨_, (issue_ok (i := .encf16L 0) (by decide)).trans
    (exec_f16Encode_ok rfl (by decide) (r := ⟨0x0000#16, 0x869F#16, true, true⟩) (by decide +kernel)), ?_⟩
  rw [setStatus_status, statusFw_statusWord]

/-- The last offset inside the buffer and the first outside it, for each width (Enc16, Enc32, Dec16, Dec32, Decf16). -/
theorem witness_bounds :
    6 + 2 ≤ (unit [] 0#64).cfg.bufLen ∧ (unit [] 0#64).cfg.bufLen < 7 + 2 ∧
    4 + 4 ≤ (unit [] 0#64).cfg.bufLen ∧ (unit [] 0#64).cfg.bufLen < 5 + 4 := by decide

/-- A state with the same bytes in the range as after the encode, and other registers. -/
theorem witness_IntegerRoundTrip :
    6 + 2 ≤ (unit [] 0xFFFF#64).cfg.bufLen ∧ 4 + 4 ≤ (unit [] 0xFFFFFFFF#64).cfg.bufLen ∧
    ∃ t, exec (.enc32M 4) (unit [] 0xFFFFFFFF#64) = .next t ∧ SameRange t { t with dout := 5#64, cmd := 9#32 } 4 4 :=
  ⟨by decide, by decide, _, rfl, rfl, fun _ _ => rfl⟩

theorem witness_OrdersAreMirrored :
    6 + 2 ≤ (unit [] 0x0102#64).cfg.bufLen ∧ 4 + 4 ≤ (unit [] 0x01020304#64).cfg.bufLen ∧
    ∃ t, exec (.enc16L 6) (unit [] 0x0102#64) = .next t ∧ SameRange t { t with raw := 5#32 } 6 2 :=
  ⟨by decide, by decide, _, rfl, rfl, fun _ _ => rfl⟩

theorem witness_Encf16StoresFields :
    (unit [] 0#64).cfg.bufLen < 5 + 4 ∧ 4 + 4 ≤ (unit [] 0#64).cfg.bufLen ∧
    f16Split (unit [] 0x7FF8000000000000#64).cfg (unit [] 0x7FF8000000000000#64).din = none ∧
    ∃ r, f16Split (unit [] 0x3FE0000000000000#64).cfg (unit [] 0x3FE0000000000000#64).din = some r :=
  ⟨by decide, by decide, by decide +kernel, ⟨0x0000#16, 0xC350#16, false, false⟩, by decide +kernel⟩

/-- 0.65536, whose scaled fraction just does not fit. -/
theorem witness_Encf16CompletesWithoutRangeCause :
    4 + 4 ≤ (unit [] 0x3FE4F8B588E368F1#64).cfg.bufLen ∧
    ¬ RangeCause (unit [] 0x3FE4F8B588E368F1#64).cfg (unit [] 0x3FE4F8B588E368F1#64).din := by
  refine ⟨by decide, fun h => ?_⟩
  have := (f16Split_eq_none _ _).2 h
  revert this
  decide +kernel

theorem witness_Encf16MBytesAreEnc32M :
    4 + 4 ≤ (unit [] 0xBFF8000000000000#64).cfg.bufLen ∧
    f16Split (unit [] 0xBFF8000000000000#64).cfg (unit [] 0xBFF8000000000000#64).din =
      some ⟨0xFFFF#16, 0xC350#16, true, false⟩ := by decide +kernel

/-- -32768.0, 32767.0 and -0. -/
theorem witness_IntegralInputsAreExact :
    4 + 4 ≤ (unit [] 0#64).cfg.bufLen ∧
    isFinite 0xC0E0000000000000#64 = true ∧ real 0xC0E0000000000000#64 = ((-32768 : Int) : ℚ) ∧
    isFinite 0x40DFFFC000000000#64 = true ∧ real 0x40DFFFC000000000#64 = ((32767 : Int) : ℚ) ∧
    isFinite 0x8000000000000000#64 = true ∧ real 0x8000000000000000#64 = ((0 : Int) : ℚ) := by decide +kernel

/-- 0.65535 under ARITH = EXACT, and the largest double below 32768.65536's fraction limit: 32767.65535. -/
theorem witness_FixedPointRoundTrip :
    4 + 4 ≤ (configured { bufLen := 8, arith := .exact } 0x3FE4F8A0902DE00D#64).cfg.bufLen ∧
    isFinite 0x3FE4F8A0902DE00D#64 = true ∧ 0 ≤ real 0x3FE4F8A0902DE00D#64 ∧ real 0x3FE4F8A0902DE00D#64 < 32768 ∧
    real 0x3FE4F8A0902DE00D#64 - (truncRat (real 0x3FE4F8A0902DE00D#64) : ℚ) < 65536 / 100000 ∧
    isFinite 0x40DFFFE9F141205C#64 = true ∧ 0 ≤ real 0x40DFFFE9F141205C#64 ∧ real 0x40DFFFE9F141205C#64 < 32768 ∧
    real 0x40DFFFE9F141205C#64 - (truncRat (real 0x40DFFFE9F141205C#64) : ℚ) < 65536 / 100000 := by decide +kernel

/-- A tie: 1 + 2^-53 lies half way between 1 and 1 + 2^-52. -/
theorem witness_RoundingIsNearestEven :
    |(9007199254740993 / 9007199254740992 : ℚ)| < 2 ^ 1023 ∧ isFinite 0x3FF0000000000001#64 = true ∧
    |real 0x3FF0000000000001#64 - (9007199254740993 / 9007199254740992 : ℚ)| =
      |real (rne64 (9007199254740993 / 9007199254740992)) - (9007199254740993 / 9007199254740992 : ℚ)| ∧
    real 0x3FF0000000000001#64 ≠ real (rne64 (9007199254740993 / 9007199254740992)) := by decide +kernel

/-- Under FLOOR and not negative, under TRUNC and negative. -/
theorem witness_ScalerStaysInRange :
    isFinite 0xBC30000000000000#64 = true ∧ (({ bufLen := 8, negMode := .floor } : Cfg).negMode = .floor) ∧
    0 ≤ real 0x3FE0000000000000#64 ∧ isFinite 0x3FE0000000000000#64 = true ∧
    (({ bufLen := 8 } : Cfg).negMode = .trunc) ∧ real 0xBC30000000000000#64 < 0 := by decide +kernel

theorem witness_TruncFractionIsExact : isFinite 0xFFEFFFFFFFFFFFFF#64 = true ∧ isFinite 0x8000000000000001#64 = true := by
  decide

/-- -32768.5 under TRUNC, whose integer part is the least that fits, and -40000.75 under INT_OVF = WRAP (V-F16-24). -/
theorem witness_NegativeTruncIsNotTheInput :
    ({ bufLen := 8 } : Cfg).negMode = .trunc ∧ real 0xC0E0001000000000#64 < 0 ∧
    real 0xC0E0001000000000#64 ≠ (truncRat (real 0xC0E0001000000000#64) : ℚ) ∧
    f16Split { bufLen := 8 } 0xC0E0001000000000#64 = some ⟨0x8000#16, 0xC350#16, true, false⟩ ∧
    ({ bufLen := 8, intOvf := .wrap } : Cfg).negMode = .trunc ∧ real 0xC0E3881800000000#64 < 0 ∧
    real 0xC0E3881800000000#64 ≠ (truncRat (real 0xC0E3881800000000#64) : ℚ) ∧
    f16Split { bufLen := 8, intOvf := .wrap } 0xC0E3881800000000#64 = some ⟨0x63C0#16, 0x61A8#16, true, false⟩ := by
  decide +kernel

theorem witness_FractionWrapImpliesLoss :
    f16Split { bufLen := 8 } 0x3FE4F8B588E368F1#64 = some ⟨0x0000#16, 0x0000#16, true, true⟩ := by decide +kernel

/-- A decode, an F16 command and a failing command, and a byte before and after a range. -/
theorem witness_CommandsKeepTheirFrame :
    (∃ t, exec (.dec16L 6) (unit [] 0#64) = .next t) ∧ (∃ t, exec (.encf16L 4) (unit [] 0#64) = .next t) ∧
    (∃ t, exec (.enc16L 7) (unit [] 0#64) = .next t ∧ statusCode t.status ≠ 0#4) ∧
    1 < Instr.offset (.enc32L 2) ∧ Instr.offset (.enc32L 2) + width (.enc32L 2) ≤ 6 :=
  ⟨⟨_, rfl⟩, ⟨_, exec_f16Encode_ok rfl (by decide) (r := ⟨0#16, 0#16, false, false⟩) (by decide +kernel)⟩, ⟨_, rfl, by decide⟩, by decide, by decide⟩

/-- Two units that differ in DOUT, RAW, STATUS and a byte outside the range of a decode; two that differ in a byte of the range
of an encode, which reads none; and two that differ in the bytes of a decode that is out of bounds. -/
theorem witness_ResultDependsOnlyOnInputs :
    decode 0x00000005#32 = .ok (.dec16L 0) ∧
    Instr.offset (.dec16L 0) + width (.dec16L 0) ≤ (unit [1#8, 2#8] 0#64).cfg.bufLen ∧
    SameRange { unit [1#8, 2#8] 0#64 with cmd := 0x00000005#32 }
      { unit [1#8, 2#8, 3#8] 0#64 with cmd := 0x00000005#32, dout := 9#64, raw := 9#32, status := 1#32 } 0 2 ∧
    decode 0x00000002#32 = .ok (.enc32L 0) ∧ isDecode (.enc32L 0) = false ∧
    (unit [1#8] 7#64).readByte 0 ≠ (unit [2#8] 7#64).readByte 0 ∧
    decode 0x00050006#32 = .ok (.dec32L 5) ∧
    ¬ Instr.offset (.dec32L 5) + width (.dec32L 5) ≤ (unit [] 0#64).cfg.bufLen := by
  unfold SameRange
  decide

/-- The reset state meets the invariant and runs a command that stores. -/
theorem witness_RerunningACommandIsIdempotent :
    (unit [1#8] 7#64).Inv ∧ ∃ t, exec (.enc16L 6) (unit [1#8] 7#64) = .next t :=
  ⟨⟨by decide, by decide, by decide, by unfold StatusLegal; decide⟩, _, rfl⟩

theorem witness_EveryStepKeepsTheInvariant :
    (withHost [.writeBuf 7 1#64]).Inv ∧ ∃ t, step (withHost [.writeBuf 7 1#64]) = .next t :=
  ⟨⟨by decide, by decide, by decide, by unfold StatusLegal; decide⟩, _, rfl⟩

end Sys2Proof.Tests
end

/-! ## Every step keeps the invariant (O46)

Each operation on the state keeps `State.Inv`; a command is a store inside the buffer or register writes, and a legal STATUS. -/

namespace Sys2Proof.Machine

section keepsInv
variable {s t : State}

/-- The invariant looks at the configuration, the draws, the buffer and STATUS, and at nothing else. -/
theorem State.Inv.congr (hs : s.Inv) (hc : t.cfg = s.cfg) (hr : t.resets = s.resets) (hm : t.mem = s.mem)
    (hst : t.status = s.status) : t.Inv :=
  inv_of_same_draws hs hc hr (hm ▸ hs.canonical) (hm ▸ hs.inside) (hst ▸ hs.status)

theorem State.Inv.setStatus (hs : s.Inv) {w : Word} (hw : StatusLegal w) : (s.setStatus w).Inv :=
  inv_of_same_draws hs rfl rfl hs.canonical hs.inside hw

theorem State.Inv.setCmd (hs : s.Inv) (w : Word) : (s.setCmd w).Inv := hs.congr rfl rfl rfl rfl

theorem State.Inv.setDin (hs : s.Inv) (v : Dword) : (s.setDin v).Inv := hs.congr rfl rfl rfl rfl

theorem State.Inv.setDout (hs : s.Inv) (v : Dword) : (s.setDout v).Inv := hs.congr rfl rfl rfl rfl

theorem State.Inv.setRaw (hs : s.Inv) (w : Word) : (s.setRaw w).Inv := hs.congr rfl rfl rfl rfl

theorem State.Inv.answerRead (hs : s.Inv) (v : Dword) (e : Bool) : (s.answerRead v e).Inv := hs.congr rfl rfl rfl rfl

theorem State.Inv.answerWrite (hs : s.Inv) (e : Bool) : (s.answerWrite e).Inv := hs.congr rfl rfl rfl rfl

theorem State.Inv.setHost (hs : s.Inv) (acts : List HostAction) : ({ s with host := acts } : State).Inv :=
  hs.congr rfl rfl rfl rfl

theorem State.Inv.writeByte (hs : s.Inv) {i : Nat} (hi : i < s.cfg.bufLen) (b : Byte) : (s.writeByte i b).Inv := by
  refine inv_of_same_draws hs rfl rfl (Memory.write_wf i b hs.canonical) (fun c hc => ?_) hs.status
  rcases Memory.mem_write hc with ⟨rfl, -⟩ | ⟨hc, -⟩
  · exact hi
  · exact hs.inside c hc

theorem State.Inv.storeValue (hs : s.Inv) (ord : Order) {w o : Nat} (h : o + w ≤ s.cfg.bufLen) (v : Nat) :
    (storeValue ord w o v s).Inv := by
  refine inv_of_same_draws hs (by simp) (by simp) (storeValue_wf ord w o v hs.canonical) (fun c hc => ?_)
    (by simpa using hs.status)
  rcases storeValue_mem ord w o v hc with hc | hc
  · omega
  · exact hs.inside c hc

theorem State.Inv.f16Put (hs : s.Inv) (ord : Order) {o : Nat} (h : o + 4 ≤ s.cfg.bufLen) (ip sf : Half) :
    (f16Put ord o ip sf s).Inv :=
  (hs.storeValue ord (by omega) ip.toNat).storeValue ord (by simp; omega) sf.toNat

/-- Reset empties the buffer and keeps the configuration (70_reset_and_hazards.md R181, R182). -/
theorem State.Inv.afterReset (hs : s.Inv) : s.afterReset.Inv :=
  ⟨hs.cfg, ⟨.nil, by simp⟩, by simp, statusLegal_complete false false⟩

theorem width_of_isF16Encode {i : Instr} (hi : isF16Encode i = true) : width i = 4 := by
  cases i
  case encf16L | encf16M => rfl
  all_goals cases hi

theorem exec_keeps_inv {i : Instr} (hs : s.Inv) (h : exec i s = .next t) : t.Inv := by
  have ok := statusLegal_complete false false
  rcases exec_next h with ⟨-, rfl⟩ | ⟨hin, he⟩
  · exact hs.setStatus (statusLegal_raise .oob)
  rcases he with ⟨-, rfl⟩ | ⟨-, -, rfl⟩ | ⟨-, -, rfl⟩ | ⟨hi, r, -, rfl⟩ | ⟨-, -, rfl⟩
  · exact (hs.storeValue _ hin _).setStatus ok
  · exact (hs.setDout _).setStatus ok
  · exact hs.setStatus (statusLegal_raise .range)
  · rw [width_of_isF16Encode hi] at hin
    exact ((hs.f16Put _ hin _ _).setRaw _).setStatus (statusLegal_complete _ _)
  · exact ((hs.setDout _).setRaw _).setStatus ok

theorem issue_keeps_inv (hs : s.Inv) (h : issue s = .next t) : t.Inv := by
  cases hd : decode s.cmd with
  | ok i => exact exec_keeps_inv hs (issue_ok hd ▸ h)
  | error e =>
    rw [issue_error hd] at h
    cases h
    exact hs.setStatus (statusLegal_raise .illegal)

theorem hostReadReg_keeps_inv {r : Nat} (hs : s.Inv) (h : hostReadReg r s = .next t) : t.Inv := by
  unfold hostReadReg at h
  split at h <;> cases h <;> exact hs.answerRead _ _

theorem hostWriteReg_keeps_inv {r : Nat} {v : Dword} (hs : s.Inv) (h : hostWriteReg r v s = .next t) : t.Inv := by
  unfold hostWriteReg at h
  split at h
  case h_1 => exact issue_keeps_inv ((hs.answerWrite false).setCmd _) h
  case h_2 => cases h; exact (hs.answerWrite false).setDin v
  all_goals cases h; exact hs.answerWrite _

theorem hostReadBuf_keeps_inv {i : Nat} (hs : s.Inv) (h : hostReadBuf i s = .next t) : t.Inv := by
  unfold hostReadBuf at h
  split at h <;> cases h <;> exact hs.answerRead _ _

theorem hostWriteBuf_keeps_inv {i : Nat} {v : Dword} (hs : s.Inv) (h : hostWriteBuf i v s = .next t) : t.Inv := by
  unfold hostWriteBuf at h
  split at h
  case isTrue hi => cases h; exact (hs.writeByte hi _).answerWrite false
  case isFalse => cases h; exact hs.answerWrite true

theorem hostAct_keeps_inv {a : HostAction} (hs : s.Inv) (h : hostAct a s = .next t) : t.Inv := by
  cases a with
  | readReg r => exact hostReadReg_keeps_inv hs h
  | writeReg r v => exact hostWriteReg_keeps_inv hs h
  | readBuf i => exact hostReadBuf_keeps_inv hs h
  | writeBuf i v => exact hostWriteBuf_keeps_inv hs h
  | movod => cases h; exact hs.congr rfl rfl rfl rfl
  | reset => cases h; exact hs.afterReset

end keepsInv

/-- Settles O46: idling changes nothing, and each host action keeps the invariant. -/
theorem everyStepKeepsTheInvariant : Obligations.EveryStepKeepsTheInvariant := by
  intro s t hs h
  cases hh : s.host with
  | nil =>
    unfold step at h
    rw [hh] at h
    cases h
    exact hs
  | cons a rest =>
    rw [step_cons hh] at h
    exact hostAct_keeps_inv (hs.setHost rest) h

end Sys2Proof.Machine

/-! ## RNE64 is nearest, ties to even (O35)

RNE64 chooses a multiple of a unit 2^u. It is nearest among all multiples of that unit, since it is within half a unit. Every
other finite pattern lies below 2^(u+52), a multiple that is at most |q|, so it is farther away still. -/

namespace Sys2Proof.Machine

/-- An integer within a half of `x` is a nearest integer, and another one is as near only at a distance of a half. -/
theorem nearest_int_of_abs_sub_le_half {x : ℚ} {Z : ℤ} (hZ : |x - Z| ≤ 1 / 2) (M : ℤ) :
    |x - Z| ≤ |x - M| ∧ (|x - M| = |x - Z| → M ≠ Z → |x - Z| = 1 / 2) := by
  by_cases hM : M = Z
  · subst hM
    exact ⟨le_rfl, fun _ hne => absurd rfl hne⟩
  · have hfar : (1 : ℚ) ≤ |(x - Z) - (x - M)| := by
      rw [sub_sub_sub_cancel_left]
      exact_mod_cast Int.one_le_abs (sub_ne_zero.2 hM)
    have htri := abs_sub (x - Z) (x - M)
    exact ⟨by linarith, fun he _ => by linarith⟩

/-- Distances in units of `p`. -/
theorem abs_mul_sub_eq {p : ℚ} (hp : 0 < p) (M : ℤ) (q : ℚ) : |M * p - q| = p * |q / p - M| := by
  rw [← abs_of_pos hp, ← abs_mul, abs_of_pos hp, mul_sub, mul_div_cancel₀ _ hp.ne', abs_sub_comm, mul_comm p]

/-- The signed form of `rne64_spec`: RNE64 gives the integer number `Z` of units nearest to q, even half way between two. -/
theorem rne64_spec_int {q : ℚ} (h0 : q ≠ 0) (hq : |q| < 2 ^ 1023) :
    ∃ u Z : ℤ, (u = -1074 ∨ (2 : ℚ) ^ (u + 52) ≤ |q|) ∧ isFinite (rne64 q) = true ∧
      real (rne64 q) = Z * 2 ^ u ∧ |q / 2 ^ u - Z| ≤ 1 / 2 ∧
      (|q / 2 ^ u - Z| = 1 / 2 → (rne64 q).getLsbD 0 = false) := by
  obtain ⟨u, N, -, -, -, -, hmid, hhalf, heven, hfin, hreal, hbit⟩ := rne64_spec h0 hq
  have hlow : (rne64 q).getLsbD 0 = false ↔ N % 2 = 0 := by
    rw [hbit, decide_eq_false_iff_not]; omega
  refine ⟨u, if q < 0 then -N else N, hmid.imp id And.left, hfin, ?_, ?_⟩
  · rw [hreal]; split_ifs <;> push_cast <;> ring
  · have hdist : |q / 2 ^ u - ((if q < 0 then -N else N : ℤ) : ℚ)| = |(|q| / 2 ^ u - N)| := by
      by_cases hneg : q < 0
      · rw [if_pos hneg, abs_of_neg hneg, ← abs_neg]; push_cast; congr 1; ring
      · rw [if_neg hneg, abs_of_nonneg (not_lt.1 hneg)]; rfl
    rw [hdist, hlow]
    exact ⟨hhalf, heven⟩

/-- Among the multiples of its unit, RNE64 is nearest with ties to even. -/
theorem rne64_nearest_multiple {q : ℚ} (h0 : q ≠ 0) (hq : |q| < 2 ^ 1023) :
    ∃ u : ℤ, (u = -1074 ∨ (2 : ℚ) ^ (u + 52) ≤ |q|) ∧
      ∀ M : ℤ, |real (rne64 q) - q| ≤ |M * 2 ^ u - q| ∧
        (|M * 2 ^ u - q| = |real (rne64 q) - q| → M * 2 ^ u ≠ real (rne64 q) → (rne64 q).getLsbD 0 = false) := by
  obtain ⟨u, Z, hmid, -, hreal, hhalf, heven⟩ := rne64_spec_int h0 hq
  have hp : (0 : ℚ) < 2 ^ u := by positivity
  refine ⟨u, hmid, fun M => ?_⟩
  obtain ⟨hle, htie⟩ := nearest_int_of_abs_sub_le_half hhalf M
  rw [hreal, abs_mul_sub_eq hp, abs_mul_sub_eq hp]
  refine ⟨by gcongr, fun he hne => heven (htie (mul_left_cancel₀ hp.ne' he) ?_)⟩
  rintro rfl
  exact hne rfl

/-- A finite pattern is a multiple of the unit 2^u or lies below the numbers whose unit that is. -/
theorem real_multiple_or_small {d : Dword} (hd : isFinite d = true) (u : ℤ) :
    (∃ M : ℤ, real d = M * 2 ^ u) ∨ (u ≠ -1074 ∧ |real d| < 2 ^ (u + 52)) := by
  obtain ⟨m, v, hm, hv, -, hreal⟩ := real_dyadic hd
  rcases le_or_gt u v with huv | huv
  · obtain ⟨j, hj⟩ := Int.eq_ofNat_of_zero_le (sub_nonneg.2 huv)
    refine .inl ⟨m * 2 ^ j, ?_⟩
    rw [hreal, ← sub_add_cancel v u, hj, zpow_add₀ two_ne_zero, zpow_natCast]
    push_cast; ring
  · refine .inr ⟨by omega, ?_⟩
    have hmq : |(m : ℚ)| < 2 ^ (53 : ℤ) := by exact_mod_cast hm
    calc |real d| = |(m : ℚ)| * 2 ^ v := by rw [hreal, abs_mul, abs_of_pos (by positivity : (0 : ℚ) < 2 ^ v)]
      _ < 2 ^ (53 : ℤ) * 2 ^ v := by gcongr
      _ = 2 ^ (53 + v) := (zpow_add₀ two_ne_zero _ _).symm
      _ ≤ 2 ^ (u + 52) := zpow_le_zpow_right₀ one_le_two (by omega)

/-- A bound below |q| is met by a number of q's sign, `b` or `-b`, exactly |q| - b away. -/
theorem exists_sign_abs_sub_eq {q b : ℚ} (hbq : b ≤ |q|) :
    ∃ ε : ℤ, |ε * b - q| = |q| - b := by
  rcases abs_cases q with ⟨hq, -⟩ | ⟨hq, -⟩
  · refine ⟨1, ?_⟩
    rw [abs_of_nonpos (by push_cast; linarith)]; push_cast; linarith
  · refine ⟨-1, ?_⟩
    rw [abs_of_nonneg (by push_cast; linarith)]; push_cast; linarith

/-- No finite pattern is nearer to q than RNE64's, and where another value is as near, RNE64's is even. -/
theorem rne64_nearest_finite {q : ℚ} (h0 : q ≠ 0) (hq : |q| < 2 ^ 1023) {d : Dword} (hd : isFinite d = true) :
    |real (rne64 q) - q| ≤ |real d - q| ∧
      (|real d - q| = |real (rne64 q) - q| → real d ≠ real (rne64 q) → (rne64 q).getLsbD 0 = false) := by
  obtain ⟨u, hmid, hnear⟩ := rne64_nearest_multiple h0 hq
  rcases real_multiple_or_small hd u with ⟨M, hM⟩ | ⟨hne, hsmall⟩
  · rw [hM]
    exact hnear M
  · obtain ⟨ε, hε⟩ := exists_sign_abs_sub_eq (hmid.resolve_left hne)
    have hunit : ((ε * 2 ^ 52 : ℤ) : ℚ) * 2 ^ u = ε * 2 ^ (u + 52) := by
      rw [zpow_add₀ two_ne_zero]; push_cast; ring
    have hlt : |real (rne64 q) - q| < |real d - q| :=
      calc |real (rne64 q) - q| ≤ |ε * 2 ^ (u + 52) - q| := hunit ▸ (hnear (ε * 2 ^ 52)).1
        _ = |q| - 2 ^ (u + 52) := hε
        _ < |q| - |real d| := sub_lt_sub_left hsmall _
        _ ≤ |real d - q| := abs_sub_comm q (real d) ▸ abs_sub_abs_le_abs_sub q (real d)
    exact ⟨hlt.le, fun he => absurd he hlt.ne'⟩

/-- Settles O35: a finite pattern is a multiple of RNE64's unit, or farther from q than such a multiple. -/
theorem roundingIsNearestEven : Obligations.RoundingIsNearestEven := by
  refine ⟨rne64_zero, fun q hq => ?_⟩
  by_cases h0 : q = 0
  · subst h0
    rw [rne64_zero, real_zero]
    exact ⟨by decide, fun d _ => by simp, fun d _ he hne => absurd (by simpa using he) hne⟩
  · obtain ⟨-, -, -, hfin, -⟩ := rne64_spec_int h0 hq
    exact ⟨hfin, fun d hd => (rne64_nearest_finite h0 hq hd).1, fun d hd => (rne64_nearest_finite h0 hq hd).2⟩

end Sys2Proof.Machine

/-! ## Register and buffer accesses of the host (O6, O8, O9, O10)

What a step does with each kind of host access, one equation per access (10_state.md R36 to R38). -/

namespace Sys2Proof.Machine

/-- A 32-bit register on the 64-bit port (10_state.md R21). -/
theorem setWidth_word_eq_append (w : Word) : w.setWidth 64 = 0#32 ++ w :=
  BitVec.setWidth_eq_append (by decide)

/-- A byte on the 64-bit port (10_state.md R37). -/
theorem setWidth_byte_eq_append (b : Byte) : b.setWidth 64 = 0#56 ++ b :=
  BitVec.setWidth_eq_append (by decide)

section access
variable {s : State} {rest : List HostAction}

/-- A write of CMD takes the low 32 bits and issues them (10_state.md R22). -/
theorem step_writeCmd {v : Dword} (h : s.host = .writeReg 0 v :: rest) :
    step s = issue { s with
      host := rest, cmd := v.setWidth 32, answer := some { data := none, herr := false } } :=
  step_cons h

theorem step_readReg {r : Nat} {v : Dword} (h : s.host = .readReg r :: rest) (hv : readRegister s r = some v) :
    step s = .next { s with host := rest, answer := some { data := some v, herr := false } } := by
  have hv' : readRegister { s with host := rest } r = some v := hv
  rw [step_cons h, hostAct, hostReadReg, hv']
  rfl

theorem readRegister_of_gt {r : Nat} (hr : 5 < r) (s : State) : readRegister s r = none := by
  obtain ⟨k, rfl⟩ := Nat.exists_eq_add_of_le' hr
  rfl

theorem hostWriteReg_of_gt {r : Nat} (hr : 5 < r) (v : Dword) (s : State) :
    hostWriteReg r v s = .next (s.answerWrite true) := by
  obtain ⟨k, rfl⟩ := Nat.exists_eq_add_of_le' hr
  rfl

/-- The host's writes of DOUT, RAW, STATUS and CFG are ignored (10_state.md R36). -/
theorem hostWriteReg_readOnly {r : Nat} (h2 : 2 ≤ r) (h5 : r ≤ 5) (v : Dword) (s : State) :
    hostWriteReg r v s = .next (s.answerWrite false) := by
  obtain rfl | rfl | rfl | rfl : r = 2 ∨ r = 3 ∨ r = 4 ∨ r = 5 := by omega
  all_goals rfl

theorem stores_writeByte (s : State) (a : Nat) (b : Byte) : Stores s (s.writeByte a b) a [b] := by
  intro x
  rw [readByte_writeByte]
  by_cases hx : x = a
  · subst hx; simp
  · rw [if_neg hx, if_neg (by simp; omega)]

end access

/-- Settles O8: the value of each register, and the effect of a write to each. -/
theorem registerAccessesAnswer : Obligations.RegisterAccessesAnswer := by
  intro s rest
  refine ⟨fun r hr h => step_readReg h ?_, fun v h => ?_, fun v h => step_cons h, fun r v h2 h5 h => ?_⟩
  · obtain rfl | rfl | rfl | rfl | rfl | rfl : r = 0 ∨ r = 1 ∨ r = 2 ∨ r = 3 ∨ r = 4 ∨ r = 5 := by omega
    all_goals simp only [readRegister, setWidth_word_eq_append]; rfl
  · rw [step_writeCmd h, BitVec.setWidth_eq_extractLsb' (by decide)]
  · exact (step_cons h).trans (hostWriteReg_readOnly h2 h5 v _)

/-- Settles O9: an index below BUF_LEN passes the check, and a write of one byte leaves the others. -/
theorem bufferAccessesAnswer : Obligations.BufferAccessesAnswer := by
  intro s rest a ha
  refine ⟨fun h => ?_, fun v h => ⟨_, (step_cons h).trans (if_pos ha), rfl, ?_⟩⟩
  · rw [← setWidth_byte_eq_append]
    exact (step_cons h).trans (if_pos ha)
  · rw [← BitVec.setWidth_eq_extractLsb' (by decide)]
    exact stores_writeByte s a (v.setWidth 8)

/-- Settles O10: each of the four bad accesses fails its check and answers HERR alone. -/
theorem badAccessesAnswerHerr : Obligations.BadAccessesAnswerHerr := by
  intro s rest
  refine ⟨fun r hr h => ?_, fun r v hr h => ?_, fun a ha h => ?_, fun a v ha h => ?_⟩
  · rw [step_cons h, hostAct, hostReadReg, readRegister_of_gt hr]; rfl
  · exact (step_cons h).trans (hostWriteReg_of_gt hr v _)
  · exact (step_cons h).trans (if_neg (Nat.not_lt.2 ha))
  · exact (step_cons h).trans (if_neg (Nat.not_lt.2 ha))

/-- The table decoder reads 32 bits as CMD does. -/
theorem decode_of_decodeTableWord {w : Nat} {i : Instr} (h : decodeTableWord 32 w = some i) :
    decode (BitVec.ofNat 32 w) = .ok i := by
  have hw : BitVec.ofNat 32 (w % 2 ^ 32) = BitVec.ofNat 32 w := BitVec.eq_of_toNat_eq (by simp)
  rw [decodeTableWord, hw] at h
  cases hd : decode (BitVec.ofNat 32 w) with
  | ok j => rw [hd] at h; cases h; rfl
  | error e => rw [hd] at h; cases h

/-- Settles O6: a write of CMD issues the word, and issuing a word that decodes executes its command. -/
theorem stepRunsDecodedCommand : Obligations.StepRunsDecodedCommand := by
  refine ⟨fun s v rest i h hd => (step_writeCmd h).trans (issue_ok hd), fun s w i hd => ?_⟩
  have hw : (BitVec.ofNat 64 (w % 2 ^ 32)).setWidth 32 = BitVec.ofNat 32 w :=
    BitVec.eq_of_toNat_eq (by simp)
  have h := step_writeCmd (s := s.withFetchWord 32 w) rfl
  rw [hw] at h
  exact h.trans (issue_ok (decode_of_decodeTableWord hd))

end Sys2Proof.Machine

/-! ## CFG is constant and reports the configuration (O11), and what STATUS holds after a command (O22)

Only reset and the host's accesses act on the state, and each keeps the configuration; a command ends as `exec_next` says. -/

namespace Sys2Proof.Machine

section issue
variable {s t : State}

/-- What issuing a word answers: the effect of the command it decodes to, or ILLEGAL (10_state.md R22, 30_encoding.md R76). -/
theorem issue_next (h : issue s = .next t) :
    (∃ i, decode s.cmd = .ok i ∧ exec i s = .next t) ∨
    (∃ e, decode s.cmd = .error e ∧ t = s.setStatus (statusWord false false .illegal)) := by
  cases hd : decode s.cmd with
  | ok i => exact .inl ⟨i, rfl, issue_ok hd ▸ h⟩
  | error e => exact .inr ⟨e, rfl, (Host.Outcome.next.inj (issue_error hd ▸ h)).symm⟩

theorem exec_cfg {i : Instr} (h : exec i s = .next t) : t.cfg = s.cfg := by
  rcases exec_next h with ⟨-, rfl⟩ | ⟨-, ⟨-, rfl⟩ | ⟨-, -, rfl⟩ | ⟨-, -, rfl⟩ | ⟨-, r, -, rfl⟩ | ⟨-, -, rfl⟩⟩
  all_goals simp

theorem issue_cfg (h : issue s = .next t) : t.cfg = s.cfg := by
  obtain ⟨i, -, he⟩ | ⟨e, -, rfl⟩ := issue_next h
  · exact exec_cfg he
  · rfl

theorem hostReadReg_cfg {r : Nat} (h : hostReadReg r s = .next t) : t.cfg = s.cfg := by
  unfold hostReadReg at h
  split at h <;> cases h <;> rfl

theorem hostWriteReg_cfg {r : Nat} {v : Dword} (h : hostWriteReg r v s = .next t) : t.cfg = s.cfg := by
  unfold hostWriteReg at h
  split at h
  case h_1 => exact (issue_cfg h).trans rfl
  all_goals cases h; rfl

theorem hostReadBuf_cfg {i : Nat} (h : hostReadBuf i s = .next t) : t.cfg = s.cfg := by
  unfold hostReadBuf at h
  split at h <;> cases h <;> rfl

theorem hostWriteBuf_cfg {i : Nat} {v : Dword} (h : hostWriteBuf i v s = .next t) : t.cfg = s.cfg := by
  unfold hostWriteBuf at h
  split at h <;> cases h <;> rfl

theorem hostAct_cfg {a : HostAction} (h : hostAct a s = .next t) : t.cfg = s.cfg := by
  cases a with
  | readReg r => exact hostReadReg_cfg h
  | writeReg r v => exact hostWriteReg_cfg h
  | readBuf i => exact hostReadBuf_cfg h
  | writeBuf i v => exact hostWriteBuf_cfg h
  | movod => cases h; rfl
  | reset => cases h; rfl

theorem step_cfg (h : step s = .next t) : t.cfg = s.cfg := by
  cases hh : s.host with
  | nil =>
    unfold step at h
    rw [hh] at h
    cases h
    rfl
  | cons a rest =>
    rw [step_cons hh] at h
    exact (hostAct_cfg h).trans rfl

end issue

section cfgWord
variable (c : Cfg)

theorem cfgWord_bufLen (hc : c.WellFormed) : ((cfgWord c).extractLsb' 0 17).toNat = c.bufLen := by
  rw [cfgWord, BitVec.extractLsb'_append_eq_of_add_le (by decide), BitVec.extractLsb'_eq_self, BitVec.toNat_ofNat]
  exact Nat.mod_eq_of_lt (by omega)

/-- The bits of CFG above BUF_LEN are those of its parameters. -/
theorem cfgWord_getLsbD_parameters :
    (cfgWord c).getLsbD 24 = decide (c.negMode = .floor) ∧ (cfgWord c).getLsbD 25 = decide (c.arith = .exact) ∧
    (cfgWord c).getLsbD 26 = decide (c.intOvf = .wrap) ∧ (cfgWord c).getLsbD 27 = decide (c.fracOvf = .range) ∧
    (cfgWord c).getLsbD 28 = decide (c.bufReset = .zero) := by
  simp only [cfgWord, BitVec.getLsbD_append]
  simp

theorem cfgWord_reserved : (cfgWord c).extractLsb' 17 7 = 0#7 ∧ (cfgWord c).extractLsb' 29 3 = 0#3 := by
  constructor
  · rw [cfgWord, BitVec.extractLsb'_append_eq_of_le (by decide), BitVec.extractLsb'_append_eq_of_add_le (by decide)]
    rfl
  · simp (disch := decide) only [cfgWord, BitVec.extractLsb'_append_eq_of_le]
    rfl

end cfgWord

/-- The error codes and OK are the four values of R26. -/
theorem codeBits_cases (e : Code) : e.bits = 0#4 ∨ e.bits = 1#4 ∨ e.bits = 2#4 ∨ e.bits = 3#4 := by
  cases e <;> simp [Code.bits]

/-- Every command ends with a STATUS word whose flags are set only by an F16 encode that completed (10_state.md R30). -/
theorem exec_status {i : Instr} {s t : State} (h : exec i s = .next t) :
    ∃ fw pl e, t.status = statusWord fw pl e ∧ (fw = true ∨ pl = true → e = .ok ∧ isF16Encode i = true) := by
  rcases exec_next h with ⟨-, rfl⟩ | ⟨-, ⟨-, rfl⟩ | ⟨-, -, rfl⟩ | ⟨-, -, rfl⟩ | ⟨hi, r, -, rfl⟩ | ⟨-, -, rfl⟩⟩
  case inr.inr.inr.inr.inl => exact ⟨r.fw, r.pl, .ok, rfl, fun _ => ⟨rfl, hi⟩⟩
  all_goals exact ⟨false, false, _, rfl, by simp⟩

theorem exists_offset_of_isF16Encode {i : Instr} (hi : isF16Encode i = true) :
    ∃ o, i = .encf16L o ∨ i = .encf16M o := by
  cases i
  case encf16L o => exact ⟨o, .inl rfl⟩
  case encf16M o => exact ⟨o, .inr rfl⟩
  all_goals cases hi

/-- Settles O22: STATUS is `statusWord` of a code and two flags, and both flags are 0 except after an F16 encode. -/
theorem statusAfterEveryCommand : Obligations.StatusAfterEveryCommand := by
  intro s t h
  obtain ⟨i, hd, he⟩ | ⟨e, -, rfl⟩ := issue_next h
  · obtain ⟨fw, pl, e, hst, hflag⟩ := exec_status he
    rw [hst, statusReserved_statusWord, statusCode_statusWord, statusPl_statusWord, statusFw_statusWord]
    refine ⟨rfl, codeBits_cases e, fun hset => ?_⟩
    obtain ⟨rfl, hi⟩ := hflag hset.symm
    obtain ⟨o, rfl | rfl⟩ := exists_offset_of_isF16Encode hi
    · exact ⟨rfl, o, .inl hd⟩
    · exact ⟨rfl, o, .inr hd⟩
  · simp [Code.bits]

/-- Settles O11: every step keeps the configuration, and each field of the CFG word is read off its concatenation. -/
theorem cfgReportsConstantConfiguration : Obligations.CfgReportsConstantConfiguration := by
  refine ⟨fun s t h => step_cfg h, fun s rest h => ⟨_, step_readReg h rfl, ?_⟩, fun c hc => ?_, by decide⟩
  · rw [setWidth_word_eq_append]
  · obtain ⟨h24, h25, h26, h27, h28⟩ := cfgWord_getLsbD_parameters c
    obtain ⟨h17, h29⟩ := cfgWord_reserved c
    rw [h24, h25, h26, h27, h28]
    simp only [decide_eq_true_iff, cfgWord_bufLen c hc, h17, h29, and_self]

end Sys2Proof.Machine

/-! ## A command's result depends on CMD, DIN, the bytes it reads and CFG alone (O43)

Two states that agree on these both fail with the same STATUS, each keeping all else, or both complete with the same effect. -/

namespace Sys2Proof.Machine

/-- What command `i` writes stands in both states: the bytes of its range, DOUT of a decode, RAW of an F16 command. -/
structure SameEffect (i : Instr) (u₁ u₂ : State) : Prop where
  range : SameRange u₁ u₂ i.offset (width i)
  dout : isDecode i = true → u₂.dout = u₁.dout
  raw : isF16 i = true → u₂.raw = u₁.raw

/-- Both results raise the same error, and nothing but STATUS is written. -/
def FailAlike (s₁ s₂ : State) (r₁ r₂ : Result) : Prop :=
  ∃ e, e ≠ .ok ∧ r₁ = raise e s₁ ∧ r₂ = raise e s₂

/-- Both results complete command `i` with the same flags and the same effect. -/
def CompleteAlike (i : Instr) (r₁ r₂ : Result) : Prop :=
  ∃ fw pl u₁ u₂, r₁ = complete fw pl u₁ ∧ r₂ = complete fw pl u₂ ∧ SameEffect i u₁ u₂

theorem Code.bits_eq_zero {e : Code} : e.bits = 0#4 ↔ e = .ok := by cases e <;> simp [Code.bits]

section congr
variable {i : Instr} {s₁ s₂ : State}

theorem storeValue_sameRange (hcfg : s₂.cfg = s₁.cfg) (ord : Order) (w o v : Nat) :
    SameRange (storeValue ord w o v s₁) (storeValue ord w o v s₂) o w := by
  refine ⟨by simpa using hcfg, fun k hk => ?_⟩
  have hin : o ≤ o + k ∧ o + k < o + w := by omega
  rw [storeValue_readByte, storeValue_readByte, if_pos hin, if_pos hin]

theorem f16Put_sameRange (hcfg : s₂.cfg = s₁.cfg) (ord : Order) (o : Nat) (ip sf : Half) :
    SameRange (f16Put ord o ip sf s₁) (f16Put ord o ip sf s₂) o 4 := by
  refine ⟨by simpa using hcfg, fun k hk => ?_⟩
  rw [f16Put_readByte, f16Put_readByte]
  by_cases hip : o ≤ o + k ∧ o + k < o + 2
  · rw [if_pos hip, if_pos hip]
  · have hsf : o + 2 ≤ o + k ∧ o + k < o + 4 := by omega
    rw [if_neg hip, if_neg hip, if_pos hsf, if_pos hsf]

theorem SameRange.setRaw {u₁ u₂ : State} {o w : Nat} (h : SameRange u₁ u₂ o w) (v : Word) :
    SameRange (u₁.setRaw v) (u₂.setRaw v) o w := h

section inBounds
variable (hdin : s₂.din = s₁.din) (hcfg : s₂.cfg = s₁.cfg) (h : i.offset + width i ≤ s₁.cfg.bufLen)
include hdin hcfg h

theorem intEncode_completeAlike (hi : isIntEncode i = true) (hd : isDecode i = false) (hf : isF16 i = false) :
    CompleteAlike i (exec i s₁) (exec i s₂) := by
  refine ⟨false, false, _, _, exec_intEncode hi h, exec_intEncode hi (hcfg ▸ h), ?_, by simp [hd], by simp [hf]⟩
  simp only [State.din16, State.din32, hdin]
  exact storeValue_sameRange hcfg _ _ _ _

theorem f16Encode_alike (hi : isF16Encode i = true) (hd : isDecode i = false) (hw : width i = 4) :
    FailAlike s₁ s₂ (exec i s₁) (exec i s₂) ∨ CompleteAlike i (exec i s₁) (exec i s₂) := by
  have h₂ : i.offset + width i ≤ s₂.cfg.bufLen := hcfg ▸ h
  have hsplit : f16Split s₂.cfg s₂.din = f16Split s₁.cfg s₁.din := by rw [hcfg, hdin]
  cases hr : f16Split s₁.cfg s₁.din with
  | none =>
    exact .inl ⟨.range, by simp, exec_f16Encode_range hi h hr, exec_f16Encode_range hi h₂ (hsplit.trans hr)⟩
  | some r =>
    refine .inr ⟨r.fw, r.pl, _, _, exec_f16Encode_ok hi h hr, exec_f16Encode_ok hi h₂ (hsplit.trans hr), ?_,
      by simp [hd], fun _ => rfl⟩
    rw [hw]
    exact (f16Put_sameRange hcfg _ _ _ _).setRaw _

omit hdin

theorem intDecode_completeAlike (hi : isDecode i = true) (hf : isF16 i = false)
    (hbytes : SameRange s₁ s₂ i.offset (width i)) : CompleteAlike i (exec i s₁) (exec i s₂) := by
  refine ⟨false, false, _, _, exec_intDecode hi hf h, exec_intDecode hi hf (hcfg ▸ h), hbytes, fun _ => ?_,
    by simp [hf]⟩
  rw [setDout_dout, setDout_dout, loadValue_congr _ _ _ hbytes.2]

theorem f16Decode_completeAlike (hi : isDecode i = true) (hf : isF16 i = true) (hw : width i = 4)
    (hbytes : SameRange s₁ s₂ i.offset (width i)) : CompleteAlike i (exec i s₁) (exec i s₂) := by
  obtain ⟨hip, hsf⟩ := f16Get_congr (order i) i.offset (hw ▸ hbytes).2
  refine ⟨false, false, _, _, exec_f16Decode hi hf h, exec_f16Decode hi hf (hcfg ▸ h), hbytes, fun _ => ?_,
    fun _ => ?_⟩
  · simp [hip, hsf, hcfg]
  · simp [hip, hsf]

end inBounds

/-- The range of `i` holds the same bytes in both states, asked only of a decode inside the buffer. -/
def SameInputBytes (i : Instr) (s₁ s₂ : State) : Prop :=
  isDecode i = true → i.offset + width i ≤ s₁.cfg.bufLen → SameRange s₁ s₂ i.offset (width i)

theorem exec_alike (hdin : s₂.din = s₁.din) (hcfg : s₂.cfg = s₁.cfg) (hbytes : SameInputBytes i s₁ s₂) :
    FailAlike s₁ s₂ (exec i s₁) (exec i s₂) ∨ CompleteAlike i (exec i s₁) (exec i s₂) := by
  rcases Nat.lt_or_ge s₁.cfg.bufLen (i.offset + width i) with hout | hin
  · exact .inl ⟨.oob, by simp, exec_outside hout, exec_outside (hcfg ▸ hout)⟩
  · rcases command_shape i with ⟨hi, hd, hf, -⟩ | ⟨hd, hf, -, -⟩ | ⟨hi, -, hd, -, hw⟩ | ⟨hd, hf, -, -, hw⟩
    · exact .inr (intEncode_completeAlike hdin hcfg hin hi hd hf)
    · exact .inr (intDecode_completeAlike hcfg hin hd hf (hbytes hd hin))
    · exact f16Encode_alike hdin hcfg hin hi hd hw
    · exact .inr (f16Decode_completeAlike hcfg hin hd hf hw (hbytes hd hin))

theorem issue_alike (hcmd : s₂.cmd = s₁.cmd) (hdin : s₂.din = s₁.din) (hcfg : s₂.cfg = s₁.cfg)
    (hbytes : ∀ i, decode s₁.cmd = .ok i → SameInputBytes i s₁ s₂) :
    FailAlike s₁ s₂ (issue s₁) (issue s₂) ∨
      ∃ i, decode s₁.cmd = .ok i ∧ CompleteAlike i (issue s₁) (issue s₂) := by
  cases hd : decode s₁.cmd with
  | ok i =>
    rw [issue_ok hd, issue_ok (hcmd ▸ hd)]
    exact (exec_alike hdin hcfg (hbytes i hd)).imp_right fun hc => ⟨i, rfl, hc⟩
  | error e => exact .inl ⟨.illegal, by simp, issue_error hd, issue_error (hcmd ▸ hd)⟩

end congr

/-- Settles O43: alike failures leave all but STATUS of each state, alike completions have the same effect. -/
theorem resultDependsOnlyOnInputs : Obligations.ResultDependsOnlyOnInputs := by
  intro s₁ s₂ hcmd hdin hcfg hbytes
  obtain ⟨e, he, h₁, h₂⟩ | ⟨i, hd, fw, pl, u₁, u₂, h₁, h₂, hsame⟩ := issue_alike hcmd hdin hcfg hbytes
  · refine ⟨_, _, h₁, h₂, rfl, fun _ => ⟨rfl, rfl, rfl, rfl, fun a => ⟨rfl, rfl⟩⟩, fun i _ hz => ?_⟩
    rw [setStatus_status, statusCode_statusWord, Code.bits_eq_zero] at hz
    exact absurd hz he
  · refine ⟨_, _, h₁, h₂, rfl, fun hne => ?_, fun j hj _ => ?_⟩
    · rw [setStatus_status, statusCode_statusWord] at hne
      exact absurd rfl hne
    · obtain rfl : i = j := Except.ok.inj (hd.symm.trans hj)
      exact ⟨hsame.range, hsame.dout, hsame.raw⟩

end Sys2Proof.Machine

/-! ## FW = 1 comes with PL = 1 (O39)

If the stored F16 stood for exactly the input, its fraction SF / 100000 would be the input's fraction above its integer part. A
wrapped SF is at most 34463, so that fraction is below 1/2, and its scaled product does not reach 65536: it would not have
wrapped. -/

namespace Sys2Proof.Machine

/-- RNE64 does not cross a finite value from below. -/
theorem real_rne64_le {q : ℚ} (hq : |q| < 2 ^ 1023) {d : Dword} (hd : isFinite d = true) (h : q ≤ real d) :
    real (rne64 q) ≤ real d := by
  have hnear := (roundingIsNearestEven.2 q hq).2.1 d hd
  rw [abs_of_nonneg (sub_nonneg.2 h)] at hnear
  linarith [le_abs_self (real (rne64 q) - q)]

/-- RNE64 does not cross a finite value from above. -/
theorem le_real_rne64 {q : ℚ} (hq : |q| < 2 ^ 1023) {d : Dword} (hd : isFinite d = true) (h : real d ≤ q) :
    real d ≤ real (rne64 q) := by
  have hnear := (roundingIsNearestEven.2 q hq).2.1 d hd
  rw [abs_of_nonpos (sub_nonpos.2 h)] at hnear
  linarith [neg_abs_le (real (rne64 q) - q)]

/-- Rounding keeps a bound from 0 to a finite value. -/
theorem real_rne64_mem_Icc {q : ℚ} {d : Dword} (hd : isFinite d = true) (hsmall : real d < 2 ^ 1023)
    (h : q ∈ Set.Icc 0 (real d)) : real (rne64 q) ∈ Set.Icc 0 (real d) := by
  have hq : |q| < 2 ^ 1023 := by rw [abs_of_nonneg h.1]; exact h.2.trans_lt hsmall
  refine ⟨?_, real_rne64_le hq hd h.2⟩
  have h0 := le_real_rne64 hq (d := 0#64) (by decide) (by rw [real_zero]; exact h.1)
  rwa [real_zero] at h0

/-- A fraction of at most a half scales to at most 50000 under either ARITH. -/
theorem scaledProduct_mem_Icc_of_le_half (a : Arith) {fr : ℚ} (h : fr ∈ Set.Icc (0 : ℚ) (1 / 2)) :
    scaledProduct a fr ∈ Set.Icc (0 : ℚ) 50000 := by
  have hscale : ∀ x ∈ Set.Icc (0 : ℚ) (1 / 2), x * (scale : ℚ) ∈ Set.Icc (0 : ℚ) 50000 := by
    rintro x ⟨h0, h1⟩
    rw [scale]
    constructor <;> push_cast <;> linarith
  cases a with
  | exact => exact hscale fr h
  | binary64 =>
    have half : real 0x3FE0000000000000#64 = 1 / 2 := by decide +kernel
    have fiftyThousand : real 0x40E86A0000000000#64 = 50000 := by decide +kernel
    have hfr := real_rne64_mem_Icc (by decide) (by rw [half]; decide +kernel) (half ▸ h)
    rw [half] at hfr
    have hp := real_rne64_mem_Icc (by decide) (by rw [fiftyThousand]; decide +kernel) (fiftyThousand ▸ hscale _ hfr)
    rwa [fiftyThousand] at hp

theorem scaledFraction_lt_of_fraction_le_half {c : Cfg} {x : ℚ}
    (h : x - (integerPart c.negMode x : ℚ) ∈ Set.Icc (0 : ℚ) (1 / 2)) : scaledFraction c x < 65536 := by
  obtain ⟨h0, h1⟩ := scaledProduct_mem_Icc_of_le_half c.arith h
  rw [scaledFraction]
  generalize scaledProduct c.arith (x - (integerPart c.negMode x : ℚ)) = p at *
  have hf0 : 0 ≤ p.floor := Rat.le_floor_iff.2 (by exact_mod_cast h0)
  have hf1 : p.floor < 50001 := Rat.floor_lt_iff.2 (h1.trans_lt (by norm_num))
  rw [scale, Int.emod_eq_of_lt hf0 (by omega)]
  omega

theorem scaledFraction_lt_scale (c : Cfg) (x : ℚ) : scaledFraction c x < 100000 :=
  Int.emod_lt_of_pos _ (by decide)

/-- Either NEG_MODE takes an integer less than 1 away from the input. -/
theorem abs_sub_integerPart_lt_one (mode : NegMode) (x : ℚ) : |x - (integerPart mode x : ℚ)| < 1 := by
  have hfloor : ∀ y : ℚ, 0 ≤ y - y.floor ∧ y - y.floor < 1 := fun y =>
    ⟨sub_nonneg.2 (Rat.floor_le y), by linarith [Rat.lt_floor (x := y)]⟩
  cases mode with
  | floor =>
    rw [integerPart, abs_of_nonneg (hfloor x).1]
    exact (hfloor x).2
  | trunc =>
    rw [integerPart, truncRat]
    split_ifs
    · rw [abs_of_nonneg (hfloor x).1]
      exact (hfloor x).2
    · have hneg : x - ((-(-x).floor : ℤ) : ℚ) = -(-x - (-x).floor) := by push_cast; ring
      rw [hneg, abs_neg, abs_of_nonneg (hfloor (-x)).1]
      exact (hfloor (-x)).2

/-- An integer near the one its low 16 bits stand for is that one. -/
theorem toInt_ofInt_of_near {t : ℤ} (h0 : (BitVec.ofInt 16 t).toInt < t + 1)
    (h1 : t < (BitVec.ofInt 16 t).toInt + 2) : (BitVec.ofInt 16 t).toInt = t := by
  rw [BitVec.toInt_ofInt, Int.bmod_def] at *
  split_ifs at * <;> omega

/-- Where the stored F16 stands for exactly the input, SF / 100000 is the input's fraction: an SF of at most 50000 bounds it. -/
theorem fraction_le_half_of_eq_f16Value {mode : NegMode} {x : ℚ} {sf : Half} (hsf : sf.toNat ≤ 50000)
    (hx : x = f16Value (BitVec.ofInt 16 (integerPart mode x)) sf) :
    x - (integerPart mode x : ℚ) ∈ Set.Icc (0 : ℚ) (1 / 2) := by
  obtain ⟨hlow, hhigh⟩ := abs_lt.1 (abs_sub_integerPart_lt_one mode x)
  have hsf0 : (0 : ℚ) ≤ sf.toNat := Nat.cast_nonneg _
  have hsf1 : (sf.toNat : ℚ) ≤ 50000 := by exact_mod_cast hsf
  generalize integerPart mode x = t at *
  rw [f16Value, scale] at hx
  push_cast at hx
  have hn : (BitVec.ofInt 16 t).toInt = t := by
    apply toInt_ofInt_of_near
    · have : ((BitVec.ofInt 16 t).toInt : ℚ) < t + 1 := by linarith
      exact_mod_cast this
    · have : (t : ℚ) < (BitVec.ofInt 16 t).toInt + 2 := by linarith
      exact_mod_cast this
  rw [hn] at hx
  constructor <;> linarith

/-- An input whose scaled fraction wraps is not the F16 stored for it. -/
theorem ne_f16Value_of_wrap {c : Cfg} {x : ℚ} (hwrap : 65536 ≤ scaledFraction c x) :
    x ≠ f16Value (BitVec.ofInt 16 (integerPart c.negMode x)) (BitVec.ofInt 16 (scaledFraction c x)) := by
  intro hx
  have hsf : (BitVec.ofInt 16 (scaledFraction c x)).toNat ≤ 50000 := by
    have := scaledFraction_lt_scale c x
    rw [BitVec.toNat_ofInt]
    omega
  exact (scaledFraction_lt_of_fraction_le_half (fraction_le_half_of_eq_f16Value hsf hx)).not_ge hwrap

/-- Settles O39: PL compares the input with the stored F16, and they differ when the scaled fraction wraps. -/
theorem fractionWrapImpliesLoss : Obligations.FractionWrapImpliesLoss := by
  intro c d r h hfw
  obtain ⟨-, -, rfl⟩ := f16Split_eq_some h
  exact decide_eq_true (ne_f16Value_of_wrap (of_decide_eq_true hfw))

end Sys2Proof.Machine

/-! ## Out of bounds (O19), the frame of every command (O42), and idempotency (O44)

Each is read off `exec_next`, the one lemma that says what a command can answer. -/

namespace Sys2Proof.Machine

section shape
variable {i : Instr}

/-- Every command touches at least two bytes (20_memory.md R51). -/
theorem two_le_width (i : Instr) : 2 ≤ width i := by
  cases i <;> simp [width]

theorem isDecode_of_isIntEncode (hi : isIntEncode i = true) : isDecode i = false := by
  cases i
  case enc16L | enc16M | enc32L | enc32M => rfl
  all_goals cases hi

theorem isDecode_of_isF16Encode (hi : isF16Encode i = true) : isDecode i = false := by
  obtain ⟨o, rfl | rfl⟩ := exists_offset_of_isF16Encode hi <;> rfl

theorem isF16_of_isF16Encode (hi : isF16Encode i = true) : isF16 i = true := by
  obtain ⟨o, rfl | rfl⟩ := exists_offset_of_isF16Encode hi <;> rfl

end shape

section frame
variable {i : Instr} {s t : State}

/-- A command that ends with an error writes STATUS and nothing else (60_exceptions.md R163). -/
theorem exec_eq_setStatus_of_code_ne_ok (h : exec i s = .next t) (hc : statusCode t.status ≠ 0#4) :
    t = s.setStatus t.status := by
  rcases exec_next h with ⟨-, rfl⟩ | ⟨-, ⟨-, rfl⟩ | ⟨-, -, rfl⟩ | ⟨-, -, rfl⟩ | ⟨-, r, -, rfl⟩ | ⟨-, -, rfl⟩⟩
  case inl | inr.inr.inr.inl => rfl
  all_goals exact absurd (statusCode_statusWord ..) hc

/-- No command writes CMD, DIN, CFG or one of the model's own fields (10_state.md R22, R23). -/
theorem exec_untouched (h : exec i s = .next t) :
    t.cmd = s.cmd ∧ t.din = s.din ∧ t.cfg = s.cfg ∧ t.host = s.host ∧ t.answer = s.answer ∧ t.resets = s.resets := by
  rcases exec_next h with ⟨-, rfl⟩ | ⟨-, ⟨-, rfl⟩ | ⟨-, -, rfl⟩ | ⟨-, -, rfl⟩ | ⟨-, r, -, rfl⟩ | ⟨-, -, rfl⟩⟩
  all_goals simp

/-- Only a decode writes DOUT (10_state.md R24). -/
theorem exec_dout_of_not_isDecode (h : exec i s = .next t) (hi : isDecode i = false) : t.dout = s.dout := by
  rcases exec_next h with ⟨-, rfl⟩ | ⟨-, ⟨-, rfl⟩ | ⟨hd, -, -⟩ | ⟨-, -, rfl⟩ | ⟨-, r, -, rfl⟩ | ⟨hd, -, -⟩⟩
  case inr.inr.inl | inr.inr.inr.inr.inr => simp [hi] at hd
  all_goals simp

/-- Only an F16 command writes RAW (10_state.md R29). -/
theorem exec_raw_of_not_isF16 (h : exec i s = .next t) (hi : isF16 i = false) : t.raw = s.raw := by
  rcases exec_next h with ⟨-, rfl⟩ | ⟨-, ⟨-, rfl⟩ | ⟨-, -, rfl⟩ | ⟨-, -, rfl⟩ | ⟨he, -⟩ | ⟨-, hf, -⟩⟩
  case inr.inr.inr.inr.inl => simp [isF16_of_isF16Encode he] at hi
  case inr.inr.inr.inr.inr => simp [hi] at hf
  all_goals simp

/-- A decode writes no byte (20_memory.md R59). -/
theorem exec_readByte_of_isDecode (h : exec i s = .next t) (hi : isDecode i = true) (a : Nat) :
    t.readByte a = s.readByte a := by
  rcases exec_next h with ⟨-, rfl⟩ | ⟨-, ⟨he, -⟩ | ⟨-, -, rfl⟩ | ⟨-, -, rfl⟩ | ⟨he, -⟩ | ⟨-, -, rfl⟩⟩
  case inr.inl => simp [isDecode_of_isIntEncode he] at hi
  case inr.inr.inr.inr.inl => simp [isDecode_of_isF16Encode he] at hi
  all_goals simp

/-- No command writes a byte outside its range (20_memory.md R59). -/
theorem exec_readByte_outside (h : exec i s = .next t) {a : Nat} (ha : a < i.offset ∨ i.offset + width i ≤ a) :
    t.readByte a = s.readByte a := by
  rcases exec_next h with ⟨-, rfl⟩ | ⟨-, ⟨-, rfl⟩ | ⟨-, -, rfl⟩ | ⟨-, -, rfl⟩ | ⟨he, r, -, rfl⟩ | ⟨-, -, rfl⟩⟩
  case inr.inl => rw [setStatus_readByte, storeValue_readByte, if_neg (by omega)]
  case inr.inr.inr.inr.inl =>
    rw [width_of_isF16Encode he] at ha
    rw [setStatus_readByte, setRaw_readByte, f16Put_readByte, if_neg (by omega), if_neg (by omega)]
  all_goals simp

end frame

/-- Settles O19: the bounds check comes first, and a buffer of fewer than two bytes is too short for every width. -/
theorem outOfBoundsSetsOnlyStatus : Obligations.OutOfBoundsSetsOnlyStatus := by
  refine ⟨fun i s h => exec_outside h, fun i s hlen => exec_outside ?_⟩
  have hw := two_le_width i
  omega

/-- Settles O42: by what each kind of command writes, and since a failing command writes STATUS alone. -/
theorem commandsKeepTheirFrame : Obligations.CommandsKeepTheirFrame := by
  intro i s t h
  obtain ⟨hcmd, hdin, hcfg, hhost, hanswer, hresets⟩ := exec_untouched h
  refine ⟨hcmd, hdin, hcfg, hhost, hanswer, hresets, ?_, ?_, ?_⟩
  · rintro (hi | hc)
    · exact exec_dout_of_not_isDecode h hi
    · rw [exec_eq_setStatus_of_code_ne_ok h hc, setStatus_dout]
  · rintro (hi | hc)
    · exact exec_raw_of_not_isF16 h hi
    · rw [exec_eq_setStatus_of_code_ne_ok h hc, setStatus_raw]
  · rintro a (hi | hc | ha)
    · exact exec_readByte_of_isDecode h hi a
    · rw [exec_eq_setStatus_of_code_ne_ok h hc, setStatus_readByte]
    · exact exec_readByte_outside h ha

section idempotent
variable (s : State)

/-- In the canonical form, a store over its own bytes changes nothing, whatever was written to STATUS between. -/
theorem storeValue_again (ord : Order) (w o v : Nat) (st : Word) (h : Memory.wf s.unlisted s.mem) :
    storeValue ord w o v ((storeValue ord w o v s).setStatus st) = (storeValue ord w o v s).setStatus st := by
  refine storeValue_self ord w o v (by simpa using storeValue_wf ord w o v h) fun j hj => ?_
  rw [setStatus_readByte, storeValue_readByte, if_pos (by omega), Nat.add_sub_cancel_left]

/-- The same of F16Put, with RAW and STATUS written between. -/
theorem f16Put_again (ord : Order) (o : Nat) (ip sf : Half) (raw st : Word) (h : Memory.wf s.unlisted s.mem) :
    f16Put ord o ip sf (((f16Put ord o ip sf s).setRaw raw).setStatus st) =
      ((f16Put ord o ip sf s).setRaw raw).setStatus st := by
  refine f16Put_self ord o ip sf (by simpa using f16Put_wf ord o ip sf h) (fun j hj => ?_) (fun j hj => ?_)
  · rw [setStatus_readByte, setRaw_readByte, f16Put_readByte, if_pos (by omega), Nat.add_sub_cancel_left]
  · rw [setStatus_readByte, setRaw_readByte, f16Put_readByte, if_neg (by omega), if_pos (by omega),
      Nat.add_sub_cancel_left]

end idempotent

/-- Settles O44: the second run takes the same branch, since CFG and DIN stand, and writes the values that stand already. -/
theorem rerunningACommandIsIdempotent : Obligations.RerunningACommandIsIdempotent := by
  intro i s t hs h
  rcases exec_next h with ⟨hout, rfl⟩ | ⟨hin, he⟩
  · exact exec_outside hout
  rcases he with ⟨hi, rfl⟩ | ⟨hi, hf, rfl⟩ | ⟨hi, hr, rfl⟩ | ⟨hi, r, hr, rfl⟩ | ⟨hi, hf, rfl⟩
  · rw [exec_intEncode hi (by simpa using hin)]
    simp only [State.din16, State.din32, setStatus_din, storeValue_din, storeValue_again s _ _ _ _ _ hs.canonical]
    rfl
  · exact exec_intDecode hi hf hin
  · exact exec_f16Encode_range hi hin hr
  · rw [exec_f16Encode_ok hi (by simpa using hin) (r := r) (by simpa using hr), f16Put_again s _ _ _ _ _ _ hs.canonical]
    rfl
  · exact exec_f16Decode hi hf hin

end Sys2Proof.Machine

/-! ## The command word: decode and encode agree, and which words are legal (O1 to O5)

A word is OFFSET, RSV, ORD, DIR and KIND in a row (30_encoding.md R70); `decode_eq_ok` says once what a word that decodes
looks like, and `decode_opcode` that every row of the opcode map, with any OFFSET, is one. -/

namespace Sys2Proof

section fields
variable (w : Word)

/-- A one-bit field as a Boolean. -/
theorem ofBool_getLsbD (n : Nat) : BitVec.ofBool (w.getLsbD n) = w.extractLsb' n 1 := by
  ext j hj
  obtain rfl : j = 0 := by omega
  simp

/-- CMD[15:0] is its four fields in a row (R70). -/
theorem lowHalf_eq_fields :
    w.extractLsb' 0 16 = cmdRsv w ++ BitVec.ofBool (cmdOrd w) ++ BitVec.ofBool (cmdDir w) ++ cmdKind w := by
  rw [cmdRsv, cmdOrd, cmdDir, cmdKind, ofBool_getLsbD, ofBool_getLsbD,
    BitVec.extractLsb'_append_extractLsb'_eq_extractLsb' (show 4 = 3 + 1 from rfl),
    BitVec.extractLsb'_append_extractLsb'_eq_extractLsb' (show 3 = 2 + 1 from rfl),
    BitVec.extractLsb'_append_extractLsb'_eq_extractLsb' (show 2 = 0 + 2 from rfl)]

theorem cmdOffset_lt : cmdOffset w < 65536 := (w.extractLsb' 16 16).isLt

end fields

section select
variable (k : Kind) (dir ord : Bool) (o : Nat)

theorem offset_selectCommand : (selectCommand k dir ord o).offset = o := by
  cases k <;> cases dir <;> cases ord <;> rfl

/-- The opcode map and the fields say the same: CMD[15:0] is `{RSV = 0, ORD, DIR, KIND}` (R70, R74). -/
theorem opcode_selectCommand {k : Kind} {b : BitVec 2} (hk : kindOf b = some k) :
    (selectCommand k dir ord o).opcode = 0#12 ++ BitVec.ofBool ord ++ BitVec.ofBool dir ++ b := by
  rcases kind_cases b with rfl | rfl | rfl | rfl <;> cases hk <;> cases dir <;> cases ord <;> rfl

/-- The fields of an opcode select its command (R72, R74). -/
theorem selectCommand_opcode (i : Instr) :
    ∃ k, kindOf (i.opcode.extractLsb' 0 2) = some k ∧ i.opcode.extractLsb' 4 12 = 0#12 ∧
      selectCommand k (i.opcode.getLsbD 2) (i.opcode.getLsbD 3) i.offset = i := by
  cases i <;> simp [Instr.opcode, kindOf, selectCommand, Instr.offset]

end select

section decode
variable {w : Word} {i : Instr}

/-- A word decodes exactly when KIND is not reserved and RSV = 0, and its command is read off the fields (R72, R75). -/
theorem decode_eq_ok :
    decode w = .ok i ↔
      ∃ k, kindOf (cmdKind w) = some k ∧ cmdRsv w = 0#12 ∧ selectCommand k (cmdDir w) (cmdOrd w) (cmdOffset w) = i := by
  unfold decode
  cases kindOf (cmdKind w) with
  | none => simp
  | some k => by_cases hr : cmdRsv w = 0#12 <;> simp [hr]

theorem offset_of_decode (h : decode w = .ok i) : i.offset = cmdOffset w := by
  obtain ⟨k, -, -, rfl⟩ := decode_eq_ok.1 h
  exact offset_selectCommand ..

/-- The command of a legal word has its CMD[15:0] as opcode (R74). -/
theorem opcode_of_decode (h : decode w = .ok i) : i.opcode = w.extractLsb' 0 16 := by
  obtain ⟨k, hk, hr, rfl⟩ := decode_eq_ok.1 h
  rw [opcode_selectCommand _ _ _ hk, lowHalf_eq_fields, hr]

theorem encode_of_decode (h : decode w = .ok i) : encode i = w := by
  rw [encode, offset_of_decode h, opcode_of_decode h, cmdOffset, BitVec.ofNat_toNat, BitVec.setWidth_eq,
    ← word_eq_append]

/-- Every opcode of the map, with any OFFSET, decodes to its command (R74). -/
theorem decode_opcode (i : Instr) {o : Half} (ho : o.toNat = i.offset) : decode (o ++ i.opcode) = .ok i := by
  obtain ⟨k, hk, hr, hi⟩ := selectCommand_opcode i
  refine decode_eq_ok.2 ⟨k, ?_, ?_, ?_⟩
  · rw [cmdKind_word, hk]
  · rw [cmdRsv_word, hr]
  · rw [cmdDir_word, cmdOrd_word, cmdOffset_word, ho, hi]

theorem decode_encode (hi : i.WellFormed) : decode (encode i) = .ok i :=
  decode_opcode i (Nat.mod_eq_of_lt hi)

end decode

/-- Settles O1: the word of a command is its opcode under its OFFSET, and OFFSET fits its 16 bits. -/
theorem decodeOfEncodeIsIdentity : Obligations.DecodeOfEncodeIsIdentity := fun _ hi => decode_encode hi

/-- Settles O2: the command's OFFSET and opcode are the two halves of the word. -/
theorem encodeOfDecodeIsIdentity : Obligations.EncodeOfDecodeIsIdentity :=
  fun w _ h => ⟨(offset_of_decode h).trans_lt (cmdOffset_lt w), encode_of_decode h⟩

/-- The CMD[15:0] column of the opcode map (R74). -/
def opcodes : List Half :=
  [0x0001#16, 0x0009#16, 0x0002#16, 0x000A#16, 0x0005#16, 0x000D#16, 0x0006#16, 0x000E#16,
    0x0003#16, 0x000B#16, 0x0007#16, 0x000F#16]

theorem opcode_mem_opcodes (i : Instr) : i.opcode ∈ opcodes := by
  cases i <;> simp [opcodes, Instr.opcode]

/-- Each opcode is that of a command, at every OFFSET. -/
theorem exists_of_mem_opcodes {c : Half} (hc : c ∈ opcodes) (o : Nat) : ∃ i : Instr, i.offset = o ∧ i.opcode = c := by
  simp only [opcodes, List.mem_cons, List.not_mem_nil, or_false] at hc
  rcases hc with rfl | rfl | rfl | rfl | rfl | rfl | rfl | rfl | rfl | rfl | rfl | rfl
  exacts [⟨.enc16L o, rfl, rfl⟩, ⟨.enc16M o, rfl, rfl⟩, ⟨.enc32L o, rfl, rfl⟩, ⟨.enc32M o, rfl, rfl⟩,
    ⟨.dec16L o, rfl, rfl⟩, ⟨.dec16M o, rfl, rfl⟩, ⟨.dec32L o, rfl, rfl⟩, ⟨.dec32M o, rfl, rfl⟩,
    ⟨.encf16L o, rfl, rfl⟩, ⟨.encf16M o, rfl, rfl⟩, ⟨.decf16L o, rfl, rfl⟩, ⟨.decf16M o, rfl, rfl⟩]

/-- Settles O3: a legal word has its command's opcode, and each opcode decodes to its command. -/
theorem opcodeMapSelectsCommands : Obligations.OpcodeMapSelectsCommands := by
  refine ⟨fun w i h => opcode_of_decode h ▸ opcode_mem_opcodes i, fun o => ?_⟩
  exact ⟨decode_opcode (.enc16L o.toNat) rfl, rfl, decode_opcode (.enc16M o.toNat) rfl, rfl,
    decode_opcode (.enc32L o.toNat) rfl, rfl, decode_opcode (.enc32M o.toNat) rfl, rfl,
    decode_opcode (.dec16L o.toNat) rfl, rfl, decode_opcode (.dec16M o.toNat) rfl, rfl,
    decode_opcode (.dec32L o.toNat) rfl, rfl, decode_opcode (.dec32M o.toNat) rfl, rfl,
    decode_opcode (.encf16L o.toNat) rfl, rfl, decode_opcode (.encf16M o.toNat) rfl, rfl,
    decode_opcode (.decf16L o.toNat) rfl, rfl, decode_opcode (.decf16M o.toNat) rfl, rfl⟩

/-- Settles O4: each legal word is a row of the opcode map, and the two others have KIND = 00 and RSV ≠ 0. -/
theorem sampleWordsDecode : Obligations.SampleWordsDecode :=
  ⟨decode_opcode (o := 3#16) (.enc16L 3) rfl, decode_opcode (o := 4#16) (.dec32L 4) rfl,
    decode_opcode (o := 7#16) (.encf16M 7) rfl, decode_opcode (o := 0xFFFF#16) (.decf16M 0xFFFF) rfl,
    decode_opcode (o := 0xFFFC#16) (.enc32L 0xFFFC) rfl, by decide, by decide⟩

section count

/-- A word by its two halves. -/
def wordOf (p : Half × Half) : Word := p.1 ++ p.2

theorem wordOf_injective : Function.Injective wordOf := by
  rintro ⟨o, c⟩ ⟨o', c'⟩ h
  have ho := congrArg (BitVec.extractLsb' 16 16) h
  have hc := congrArg (BitVec.extractLsb' 0 16) h
  simp only [wordOf, BitVec.extractLsb'_append_eq_left, BitVec.extractLsb'_append_eq_right] at ho hc
  rw [ho, hc]

/-- A word is legal exactly when its CMD[15:0] is one of the twelve (R74). -/
theorem legalWords_eq_image :
    {w : Word | ∃ i, decode w = .ok i} = wordOf '' (Set.univ ×ˢ (opcodes.toFinset : Set Half)) := by
  ext w
  simp only [Set.mem_ofPred_eq, Set.mem_image, Set.mem_prod, Set.mem_univ, true_and, Finset.mem_coe,
    List.mem_toFinset, Prod.exists]
  constructor
  · rintro ⟨i, h⟩
    have hc := opcode_mem_opcodes i
    rw [opcode_of_decode h] at hc
    exact ⟨_, _, hc, (word_eq_append w).symm⟩
  · rintro ⟨o, c, hc, rfl⟩
    obtain ⟨i, ho, rfl⟩ := exists_of_mem_opcodes hc o.toNat
    exact ⟨i, decode_opcode i ho.symm⟩

theorem ncard_legalWords : Set.ncard {w : Word | ∃ i, decode w = .ok i} = 65536 * 12 := by
  have hOffsets : Nat.card Half = 65536 := by
    rw [Nat.card_congr BitVec.equivFin.toEquiv, Nat.card_fin]; rfl
  have hOpcodes : Set.ncard (opcodes.toFinset : Set Half) = 12 :=
    (Set.ncard_coe_finset opcodes.toFinset).trans rfl
  rw [legalWords_eq_image, Set.ncard_image_of_injective _ wordOf_injective, Set.ncard_prod, Set.ncard_univ, hOffsets,
    hOpcodes]

end count

theorem decode_ok_iff_not_error (w : Word) : (∃ i, decode w = .ok i) ↔ ¬ ∃ e, decode w = .error e := by
  cases decode w <;> simp

/-- Settles O5: a word is legal exactly when the check of R76 does not reject it; and 2^16 offsets stand beside 12
opcodes. -/
theorem legalWordsAreCounted : Obligations.LegalWordsAreCounted := by
  refine ⟨fun w => ?_, ncard_legalWords⟩
  rw [decode_ok_iff_not_error, decode_eq_error, not_or, not_not]

end Sys2Proof

/-! ## Illegal words, MOVOD, encode lines and composites on the host port (O7, O15, O16, O17)

WCMD of a command's word runs the command, since the word decodes to it; lines and composites are such steps in a row. -/

namespace Sys2Proof.Machine

section lines
variable {s : State} {rest : List HostAction}

/-- WCMD of a command's word runs the command, with the word in CMD (10_state.md R22, 30_encoding.md R80). -/
theorem step_issueWord {i : Instr} (hi : i.WellFormed) (h : s.host = issueWord (encode i) :: rest) :
    step s = exec i { s with
      host := rest, cmd := encode i, answer := some { data := none, herr := false } } := by
  have hw : ((encode i).setWidth 64).setWidth 32 = encode i := by simp
  have hs := step_writeCmd h
  rw [hw] at hs
  exact hs.trans (issue_ok (decode_encode hi))

/-- WDIN (R80). -/
theorem step_writeDin {v : Dword} (h : s.host = .writeReg 1 v :: rest) :
    step s = .next { s with host := rest, din := v, answer := some { data := none, herr := false } } :=
  step_cons h

/-- A write of DIN and then WCMD of a command's word (R80). -/
theorem step_step_writeDin_issueWord {i : Instr} (hi : i.WellFormed) {v : Dword}
    (h : s.host = .writeReg 1 v :: issueWord (encode i) :: rest) :
    ∃ u, step s = .next u ∧ step u = exec i { s with
      host := rest, din := v, cmd := encode i, answer := some { data := none, herr := false } } :=
  ⟨_, step_writeDin h, step_issueWord hi rfl⟩

/-- MOVOD and the write it puts first (R80). -/
theorem step_step_movod (h : s.host = .movod :: rest) :
    ∃ u, step s = .next u ∧ u.host = .writeReg 1 s.dout :: rest ∧
      step u = .next { s with
        host := rest, din := s.dout, answer := some { data := none, herr := false } } :=
  ⟨_, step_cons h, rfl, step_writeDin rfl⟩

end lines

section run

theorem coreRun_one {M : Host.Core} (s : M.State) : M.run 1 s = M.step s := by
  unfold Host.Core.run
  cases M.step s <;> rfl

theorem run_one (s : State) : Host.Core.run Sys2Proof.core 1 s = step s := coreRun_one (M := Sys2Proof.core) s

/-- A run of `k + 1` steps whose first is known. -/
theorem run_succ_of_step {s t : State} (h : step s = .next t) (k : Nat) :
    Host.Core.run Sys2Proof.core (k + 1) s = Host.Core.run Sys2Proof.core k t := by
  have hs : Sys2Proof.core.step s = .next t := h
  simp only [Host.Core.run, hs]

end run

section composite
variable {s : State} {rest : List HostAction} {dec enc : Instr}

/-- WCMD of an integer decode in bounds leaves the value in DOUT, and every byte as it was (40_byte_order.md R104 to R107). -/
theorem step_intDecode (hdw : dec.WellFormed) (hd : isDecode dec = true) (hf : isF16 dec = false)
    (hin : dec.offset + width dec ≤ s.cfg.bufLen) (h : s.host = issueWord (encode dec) :: rest) :
    ∃ t, step s = .next t ∧ t.host = rest ∧ t.cfg = s.cfg ∧
      t.dout = BitVec.ofNat 64 (loadValue (order dec) (width dec) dec.offset s) ∧ ∀ a, t.readByte a = s.readByte a := by
  refine ⟨_, (step_issueWord hdw h).trans (exec_intDecode hd hf hin), rfl, rfl, ?_, fun _ => rfl⟩
  rw [setStatus_dout, setDout_dout, loadValue_congr]
  exact fun _ _ => rfl

/-- The accesses of a composite end with its encode, run on a state whose DIN holds the value decoded and whose bytes are
those of the beginning (30_encoding.md R80). -/
theorem run_composite (hdw : dec.WellFormed) (hew : enc.WellFormed) (hd : isDecode dec = true) (hf : isF16 dec = false)
    (hin : dec.offset + width dec ≤ s.cfg.bufLen)
    (h : s.host = issueWord (encode dec) :: .movod :: issueWord (encode enc) :: rest) :
    ∃ u : State, Host.Core.run Sys2Proof.core 4 s = exec enc u ∧ u.host = rest ∧ u.cfg = s.cfg ∧
      u.din = BitVec.ofNat 64 (loadValue (order dec) (width dec) dec.offset s) ∧
      ∀ a, u.readByte a = s.readByte a := by
  obtain ⟨s₁, h₁, hhost, hcfg, hdout, hbytes⟩ := step_intDecode hdw hd hf hin h
  obtain ⟨s₂, h₂, -, h₃⟩ := step_step_movod hhost
  have hrun := ((run_succ_of_step h₁ 3).trans (run_succ_of_step h₂ 2)).trans (run_succ_of_step h₃ 1)
  exact ⟨_, (hrun.trans (run_one _)).trans (step_issueWord hew rfl), rfl, hcfg, hdout, hbytes⟩

end composite

/-- A store is told against any state with the bytes of the one before it. -/
theorem Stores.congr_left {s u t : State} {o : Nat} {bytes : List Byte} (h : Stores u t o bytes)
    (hb : ∀ a, u.readByte a = s.readByte a) : Stores s t o bytes :=
  fun a => (h a).trans (by rw [hb a])

section store
variable (ord : Order) {w o : Nat} (v : Nat) (s : State)

theorem storeValue_readByte_add {k : Nat} (hk : k < w) :
    (storeValue ord w o v s).readByte (o + k) = laneByte ord w k v := by
  rw [storeValue_readByte, if_pos (by omega), Nat.add_sub_cancel_left]

theorem storeValue_readByte_outside {a : Nat} (ha : a < o ∨ o + w ≤ a) :
    (storeValue ord w o v s).readByte a = s.readByte a := by
  rw [storeValue_readByte, if_neg (by omega)]

end store

section bytes
variable (s : State) (o : Nat) (b3 b2 b1 b0 : Byte)

theorem extractLsb'_two_bytes :
    (b1 ++ b0).extractLsb' 0 8 = b0 ∧ (b1 ++ b0).extractLsb' 8 8 = b1 :=
  ⟨BitVec.extractLsb'_append_eq_right, BitVec.extractLsb'_append_eq_left⟩

theorem extractLsb'_four_bytes :
    (b3 ++ b2 ++ b1 ++ b0).extractLsb' 0 8 = b0 ∧ (b3 ++ b2 ++ b1 ++ b0).extractLsb' 8 8 = b1 ∧
    (b3 ++ b2 ++ b1 ++ b0).extractLsb' 16 8 = b2 ∧ (b3 ++ b2 ++ b1 ++ b0).extractLsb' 24 8 = b3 := by
  simp (disch := decide) only [BitVec.extractLsb'_append_eq_of_le, BitVec.extractLsb'_append_eq_of_add_le,
    Nat.reduceSub, BitVec.extractLsb'_eq_self, and_self]

/-- A 16-bit store in MSBF order, byte for byte (20_memory.md R54). -/
theorem stores_storeValue_msbf_two :
    Stores s (storeValue .msbf 2 o (b1 ++ b0).toNat s) o [b1, b0] := by
  obtain ⟨h0, h1⟩ := extractLsb'_two_bytes b1 b0
  exact stores_two.2 ⟨(storeValue_readByte_add _ _ s (k := 0) (by decide)).trans h1,
    (storeValue_readByte_add _ _ s (by decide)).trans h0, fun a ha => storeValue_readByte_outside _ _ s ha⟩

/-- A 32-bit store in MSBF order, byte for byte (20_memory.md R54). -/
theorem stores_storeValue_msbf_four :
    Stores s (storeValue .msbf 4 o (b3 ++ b2 ++ b1 ++ b0).toNat s) o [b3, b2, b1, b0] := by
  obtain ⟨h0, h1, h2, h3⟩ := extractLsb'_four_bytes b3 b2 b1 b0
  exact stores_four.2 ⟨(storeValue_readByte_add _ _ s (k := 0) (by decide)).trans h3,
    (storeValue_readByte_add _ _ s (by decide)).trans h2, (storeValue_readByte_add _ _ s (by decide)).trans h1,
    (storeValue_readByte_add _ _ s (by decide)).trans h0, fun a ha => storeValue_readByte_outside _ _ s ha⟩

end bytes

section din
variable {s : State}

theorem din16_of_din_eq {x : Half} (h : s.din = BitVec.ofNat 64 x.toNat) : s.din16 = x := by
  rw [State.din16, h, ← BitVec.setWidth_eq_extractLsb' (by decide)]
  simp

theorem din32_of_din_eq {x : Word} (h : s.din = BitVec.ofNat 64 x.toNat) : s.din32 = x := by
  rw [State.din32, h, ← BitVec.setWidth_eq_extractLsb' (by decide)]
  simp

end din

/-- Settles O7: the word does not decode, so issuing it raises ILLEGAL and no more. -/
theorem illegalWordSetsOnlyStatus : Obligations.IllegalWordSetsOnlyStatus := by
  intro s v rest h hill
  obtain ⟨e, he⟩ := (decode_eq_error _).2 hill
  exact (step_writeCmd h).trans (issue_error he)

/-- Settles O15: the step of MOVOD puts the write of DOUT's value to DIN first. -/
theorem movodCopiesDoutToDin : Obligations.MovodCopiesDoutToDin := fun _ _ h => step_step_movod h

/-- Settles O17: both kinds of line expand to a write of DIN and WCMD of the command's word. -/
theorem encodeLineWritesDinThenIssues : Obligations.EncodeLineWritesDinThenIssues :=
  fun _ _ _ hi => ⟨fun _ _ _ h => step_step_writeDin_issueWord hi h, fun _ _ h => step_step_writeDin_issueWord hi h⟩

/-- Settles O16: the LSBF decode puts the bytes at `a` in DIN, and the MSBF encode stores DIN's bytes highest first. -/
theorem compositesReverseBytes : Obligations.CompositesReverseBytes := by
  refine fun s rest a d ha hd => ⟨fun h hsrc hdst => ?_, fun h hsrc hdst => ?_⟩
  · obtain ⟨u, hrun, hhost, hcfg, hdin, hbytes⟩ :=
      run_composite (dec := .dec16L a) (enc := .enc16M d) ha hd rfl rfl hsrc h
    have hv : u.din16 = s.readByte (a + 1) ++ s.readByte a :=
      din16_of_din_eq (hdin.trans (congrArg _ (loadValue_lsbf_two a s)))
    refine ⟨_, hrun.trans (exec_intEncode rfl (hcfg ▸ hdst)), ?_, rfl, ?_⟩
    · exact (storeValue_host ..).trans hhost
    · refine Stores.congr_left (u := u) ?_ hbytes
      change Stores u (storeValue .msbf 2 d u.din16.toNat u) d _
      rw [hv]
      exact stores_storeValue_msbf_two u d _ _
  · obtain ⟨u, hrun, hhost, hcfg, hdin, hbytes⟩ :=
      run_composite (dec := .dec32L a) (enc := .enc32M d) ha hd rfl rfl hsrc h
    have hv : u.din32 = s.readByte (a + 3) ++ s.readByte (a + 2) ++ s.readByte (a + 1) ++ s.readByte a :=
      din32_of_din_eq (hdin.trans (congrArg _ (loadValue_lsbf_four a s)))
    refine ⟨_, hrun.trans (exec_intEncode rfl (hcfg ▸ hdst)), ?_, rfl, ?_⟩
    · exact (storeValue_host ..).trans hhost
    · refine Stores.congr_left (u := u) ?_ hbytes
      change Stores u (storeValue .msbf 4 d u.din32.toNat u) d _
      rw [hv]
      exact stores_storeValue_msbf_four u d _ _ _ _

end Sys2Proof.Machine

/-! ## The integer commands move the bytes of DIN and DOUT, each in its place (O23 to O28)

Byte `lane ord w k` of the value stands at o+k in either order (40_byte_order.md R111), and `lane` is its own inverse: so one
description of the stored bytes, `HoldsLanes`, and one of the value loaded serve both orders. -/

namespace Sys2Proof.Machine

/-- The `w` bytes from `o` on are the low `w` bytes of `d` in the order `ord` (20_memory.md R53, R54). -/
def HoldsLanes (ord : Order) (w o : Nat) (d : Dword) (t : State) : Prop :=
  ∀ k, k < w → t.readByte (o + k) = d.extractLsb' (8 * lane ord w k) 8

section lane
variable (ord : Order) {w k : Nat}

theorem lane_lt (hk : k < w) : lane ord w k < w := by
  cases ord
  case lsbf => exact hk
  case msbf => exact Nat.sub_one_sub_lt hk

theorem lane_lane (hk : k < w) : lane ord w (lane ord w k) = k := by
  cases ord
  case lsbf => rfl
  case msbf => exact Nat.sub_sub_self (Nat.le_sub_one_of_lt hk)

/-- A lane of the low `n` bits of DIN is that byte of DIN (30_encoding.md R73). -/
theorem laneByte_extractLsb' (d : Dword) {n : Nat} (hn : 8 * w ≤ n) (hk : k < w) :
    laneByte ord w k (d.extractLsb' 0 n).toNat = d.extractLsb' (8 * lane ord w k) 8 := by
  have hl := lane_lt ord hk
  rw [laneByte_toNat, BitVec.extractLsb'_extractLsb'_of_le (by omega)]

/-- A lane counted in the other order is the lane from the far end (40_byte_order.md R110). -/
theorem lane_lane_of_ne {ord' : Order} (hne : ord' ≠ ord) : lane ord w (lane ord' w k) = w - 1 - k := by
  cases ord <;> cases ord'
  case lsbf.msbf | msbf.lsbf => rfl
  all_goals exact absurd rfl hne

end lane

section holdsLanes
variable {ord : Order} {w o : Nat} {d : Dword} {t u : State}

theorem HoldsLanes.of_sameRange (h : HoldsLanes ord w o d t) (hu : SameRange t u o w) : HoldsLanes ord w o d u :=
  fun k hk => (hu.2 k hk).trans (h k hk)

/-- A range inside the buffer stays inside it, since no command writes CFG (10_state.md R31). -/
theorem SameRange.inside {i : Instr} {s : State} {n : Nat} (hu : SameRange t u o w) (h : exec i s = .next t)
    (hn : n ≤ s.cfg.bufLen) : n ≤ u.cfg.bufLen := by
  rwa [hu.1, exec_cfg h]

/-- The two orders put the same bytes in reverse (40_byte_order.md R110). -/
theorem HoldsLanes.mirrored (hl : HoldsLanes .lsbf w o d t) (hm : HoldsLanes .msbf w o d u) :
    ∀ k, k < w → u.readByte (o + k) = t.readByte (o + (w - 1 - k)) :=
  fun k hk => (hm k hk).trans (hl (w - 1 - k) (lane_lt .msbf hk)).symm

/-- Mirrored bytes are the same bytes exactly where they are a palindrome (40_byte_order.md R110). -/
theorem sameBytes_iff_palindrome (h : ∀ k, k < w → u.readByte (o + k) = t.readByte (o + (w - 1 - k))) :
    (∀ k, k < w → u.readByte (o + k) = t.readByte (o + k)) ↔
      ∀ k, k < w → t.readByte (o + k) = t.readByte (o + (w - 1 - k)) :=
  forall₂_congr fun k hk => by rw [h k hk, eq_comm]

end holdsLanes

section load
variable (ord : Order) (o : Nat) (s : State)

/-- Two bytes as the low bits of DOUT (10_state.md R24). -/
theorem ofNat_toNat_two_bytes (b1 b0 : Byte) : BitVec.ofNat 64 (b1 ++ b0).toNat = 0#48 ++ b1 ++ b0 := by
  rw [BitVec.ofNat_toNat, BitVec.setWidth_eq_append (by decide), BitVec.append_assoc]

/-- Four bytes as the low bits of DOUT (10_state.md R24). -/
theorem ofNat_toNat_four_bytes (b3 b2 b1 b0 : Byte) :
    BitVec.ofNat 64 (b3 ++ b2 ++ b1 ++ b0).toNat = 0#32 ++ b3 ++ b2 ++ b1 ++ b0 := by
  apply BitVec.eq_of_toNat_eq
  rw [BitVec.ofNat_toNat, BitVec.toNat_setWidth_of_le (by decide)]
  simp [toNat_append_byte]

/-- What a 16-bit decode puts in DOUT (40_byte_order.md R104, R105). -/
theorem ofNat_loadValue_two :
    BitVec.ofNat 64 (loadValue ord 2 o s) =
      0#48 ++ s.readByte (o + lane ord 2 1) ++ s.readByte (o + lane ord 2 0) := by
  cases ord
  case lsbf => exact (congrArg _ (loadValue_lsbf_two o s)).trans (ofNat_toNat_two_bytes ..)
  case msbf => exact (congrArg _ (loadValue_msbf_two o s)).trans (ofNat_toNat_two_bytes ..)

/-- What a 32-bit decode puts in DOUT (40_byte_order.md R106, R107). -/
theorem ofNat_loadValue_four :
    BitVec.ofNat 64 (loadValue ord 4 o s) =
      0#32 ++ s.readByte (o + lane ord 4 3) ++ s.readByte (o + lane ord 4 2) ++ s.readByte (o + lane ord 4 1) ++
        s.readByte (o + lane ord 4 0) := by
  cases ord
  case lsbf => exact (congrArg _ (loadValue_lsbf_four o s)).trans (ofNat_toNat_four_bytes ..)
  case msbf => exact (congrArg _ (loadValue_msbf_four o s)).trans (ofNat_toNat_four_bytes ..)

variable {ord o s} {d : Dword}

theorem HoldsLanes.readByte_lane {w k : Nat} (h : HoldsLanes ord w o d s) (hk : k < w) :
    s.readByte (o + lane ord w k) = d.extractLsb' (8 * k) 8 := by
  rw [h _ (lane_lt ord hk), lane_lane ord hk]

theorem HoldsLanes.readByte_lane_of_ne {w k : Nat} (h : HoldsLanes ord w o d s) {ord' : Order} (hne : ord' ≠ ord)
    (hk : k < w) : s.readByte (o + lane ord' w k) = d.extractLsb' (8 * (w - 1 - k)) 8 := by
  rw [h _ (lane_lt ord' hk), lane_lane_of_ne ord hne]

/-- Two bytes read in the other order give the byte swap of the value (40_byte_order.md R110). -/
theorem HoldsLanes.ofNat_loadValue_two_swapped (h : HoldsLanes ord 2 o d s) {ord' : Order} (hne : ord' ≠ ord) :
    BitVec.ofNat 64 (loadValue ord' 2 o s) = 0#48 ++ d.extractLsb' 0 8 ++ d.extractLsb' 8 8 := by
  rw [ofNat_loadValue_two, h.readByte_lane_of_ne hne (by decide), h.readByte_lane_of_ne hne (by decide)]

/-- Four bytes read in the other order give the byte swap of the value (40_byte_order.md R110). -/
theorem HoldsLanes.ofNat_loadValue_four_swapped (h : HoldsLanes ord 4 o d s) {ord' : Order} (hne : ord' ≠ ord) :
    BitVec.ofNat 64 (loadValue ord' 4 o s) =
      0#32 ++ d.extractLsb' 0 8 ++ d.extractLsb' 8 8 ++ d.extractLsb' 16 8 ++ d.extractLsb' 24 8 := by
  rw [ofNat_loadValue_four, h.readByte_lane_of_ne hne (by decide), h.readByte_lane_of_ne hne (by decide),
    h.readByte_lane_of_ne hne (by decide), h.readByte_lane_of_ne hne (by decide)]

/-- Bytes read in the order they were stored in give the value back (40_byte_order.md R109). -/
theorem HoldsLanes.ofNat_loadValue {w : Nat} (hw : w = 2 ∨ w = 4) (h : HoldsLanes ord w o d s) :
    BitVec.ofNat 64 (loadValue ord w o s) = (d.extractLsb' 0 (8 * w)).setWidth 64 := by
  obtain rfl | rfl := hw
  · rw [ofNat_loadValue_two, h.readByte_lane (by decide), h.readByte_lane (by decide), ← ofNat_toNat_two_bytes,
      BitVec.extractLsb'_append_extractLsb'_eq_extractLsb' (by decide), BitVec.ofNat_toNat]
  · rw [ofNat_loadValue_four, h.readByte_lane (by decide), h.readByte_lane (by decide), h.readByte_lane (by decide),
      h.readByte_lane (by decide), ← ofNat_toNat_four_bytes,
      BitVec.extractLsb'_append_extractLsb'_eq_extractLsb' (by decide),
      BitVec.extractLsb'_append_extractLsb'_eq_extractLsb' (by decide),
      BitVec.extractLsb'_append_extractLsb'_eq_extractLsb' (by decide), BitVec.ofNat_toNat]

end load

section commands
variable {i : Instr} {s : State}

theorem width_of_isIntEncode (hi : isIntEncode i = true) : width i = 2 ∨ width i = 4 := by
  cases i
  case enc16L | enc16M => exact .inl rfl
  case enc32L | enc32M => exact .inr rfl
  all_goals cases hi

/-- An integer encode in bounds writes STATUS = 0 and the low bytes of DIN in its order (40_byte_order.md R100 to R103). -/
theorem exec_intEncode_holdsLanes (hi : isIntEncode i = true) (hin : i.offset + width i ≤ s.cfg.bufLen) :
    ∃ t, exec i s = .next t ∧ t = { s with mem := t.mem, status := 0x00000000#32 } ∧
      HoldsLanes (order i) (width i) i.offset s.din t := by
  refine ⟨_, exec_intEncode hi hin, congrArg (State.setStatus · 0#32) (storeValue_frame ..), fun k hk => ?_⟩
  rw [setStatus_readByte, storeValue_readByte_add _ _ s hk]
  obtain hw | hw := width_of_isIntEncode hi
  · rw [if_pos hw]
    exact laneByte_extractLsb' _ s.din (by omega) hk
  · rw [if_neg (by omega)]
    exact laneByte_extractLsb' _ s.din (by omega) hk

/-- An integer encode in bounds stores those bytes and no other (20_memory.md R59). -/
theorem exec_intEncode_stores (hi : isIntEncode i = true) (hin : i.offset + width i ≤ s.cfg.bufLen) :
    ∃ t, exec i s = .next t ∧ t = { s with mem := t.mem, status := 0x00000000#32 } ∧
      Stores s t i.offset
        ((List.range (width i)).map fun k => s.din.extractLsb' (8 * lane (order i) (width i) k) 8) := by
  obtain ⟨t, ht, hframe, hb⟩ := exec_intEncode_holdsLanes hi hin
  refine ⟨t, ht, hframe, fun a => ?_⟩
  rw [List.length_map, List.length_range]
  by_cases ha : i.offset ≤ a ∧ a < i.offset + width i
  · have hk : a - i.offset < width i := by omega
    have hbyte := hb _ hk
    rw [Nat.add_sub_cancel' ha.1] at hbyte
    simp [ha, hk, hbyte]
  · rw [if_neg ha, exec_readByte_outside ht (by omega)]

/-- An integer decode in bounds writes DOUT and STATUS = 0, and nothing else (40_byte_order.md R104 to R107). -/
theorem exec_intDecode_dout (hi : isDecode i = true) (hf : isF16 i = false) (hin : i.offset + width i ≤ s.cfg.bufLen)
    {v : Dword} (hv : BitVec.ofNat 64 (loadValue (order i) (width i) i.offset s) = v) :
    exec i s = .next { s with dout := v, status := 0x00000000#32 } := by
  rw [exec_intDecode hi hf hin, hv]
  rfl

/-- A decode in the order of an encode gives the value back (40_byte_order.md R109). -/
theorem intEncode_then_intDecode {enc dec : Instr} (he : isIntEncode enc = true) (hd : isDecode dec = true)
    (hf : isF16 dec = false) (hoff : dec.offset = enc.offset) (hwidth : width dec = width enc)
    (hord : order dec = order enc) (hin : enc.offset + width enc ≤ s.cfg.bufLen) :
    ∃ t, exec enc s = .next t ∧ ∀ u, SameRange t u enc.offset (width enc) →
      ∃ x, exec dec u = .next x ∧ x.dout = (s.din.extractLsb' 0 (8 * width enc)).setWidth 64 ∧ x.status = 0#32 := by
  obtain ⟨t, ht, -, hb⟩ := exec_intEncode_holdsLanes he hin
  refine ⟨t, ht, fun u hu => ⟨_, exec_intDecode_dout hd hf ?_ ?_, rfl, rfl⟩⟩
  · rw [hoff, hwidth]
    exact hu.inside ht hin
  · rw [hoff, hwidth, hord]
    exact (hb.of_sameRange hu).ofNat_loadValue (width_of_isIntEncode he)

end commands

/-- Settles O23: two lanes of DIN, lane 0 first under LSBF and lane 1 first under MSBF. -/
theorem enc16StoresDinHalf : Obligations.Enc16StoresDinHalf := fun _ _ =>
  ⟨rfl, rfl, fun h => exec_intEncode_stores (i := .enc16L _) rfl h,
    fun h => exec_intEncode_stores (i := .enc16M _) rfl h, fun h => ⟨exec_outside h, exec_outside h⟩⟩

/-- Settles O24: four lanes of DIN, lane 0 first under LSBF and lane 3 first under MSBF. -/
theorem enc32StoresDinWord : Obligations.Enc32StoresDinWord := fun _ _ =>
  ⟨rfl, rfl, fun h => exec_intEncode_stores (i := .enc32L _) rfl h,
    fun h => exec_intEncode_stores (i := .enc32M _) rfl h, fun h => ⟨exec_outside h, exec_outside h⟩⟩

/-- Settles O25: DOUT takes the two bytes, lane 1 above lane 0. -/
theorem dec16LoadsDout : Obligations.Dec16LoadsDout := fun o s =>
  ⟨rfl, rfl,
    fun h => ⟨exec_intDecode_dout (i := .dec16L o) rfl rfl h (ofNat_loadValue_two .lsbf o s),
      exec_intDecode_dout (i := .dec16M o) rfl rfl h (ofNat_loadValue_two .msbf o s)⟩,
    fun h => ⟨exec_outside h, exec_outside h⟩⟩

/-- Settles O26: DOUT takes the four bytes, lane 3 down to lane 0. -/
theorem dec32LoadsDout : Obligations.Dec32LoadsDout := fun o s =>
  ⟨rfl, rfl,
    fun h => ⟨exec_intDecode_dout (i := .dec32L o) rfl rfl h (ofNat_loadValue_four .lsbf o s),
      exec_intDecode_dout (i := .dec32M o) rfl rfl h (ofNat_loadValue_four .msbf o s)⟩,
    fun h => ⟨exec_outside h, exec_outside h⟩⟩

/-- Settles O27: both widths and orders are pairs of one width, order and offset. -/
theorem integerRoundTrip : Obligations.IntegerRoundTrip := fun o _ =>
  ⟨fun h => ⟨intEncode_then_intDecode (enc := .enc16L o) (dec := .dec16L o) rfl rfl rfl rfl rfl rfl h,
      intEncode_then_intDecode (enc := .enc16M o) (dec := .dec16M o) rfl rfl rfl rfl rfl rfl h⟩,
    fun h => ⟨intEncode_then_intDecode (enc := .enc32L o) (dec := .dec32L o) rfl rfl rfl rfl rfl rfl h,
      intEncode_then_intDecode (enc := .enc32M o) (dec := .dec32M o) rfl rfl rfl rfl rfl rfl h⟩⟩

/-- Settles O28: the stored lanes are mirrored, and a decode in the other order reads them from the far end. -/
theorem ordersAreMirrored : Obligations.OrdersAreMirrored := by
  refine fun o s => ⟨fun h => ?_, fun h => ?_⟩
  · obtain ⟨tl, htl, -, hl⟩ := exec_intEncode_holdsLanes (i := .enc16L o) rfl h
    obtain ⟨tm, htm, -, hm⟩ := exec_intEncode_holdsLanes (i := .enc16M o) rfl h
    have hmir := hl.mirrored hm
    refine ⟨tl, tm, htl, htm, hmir, sameBytes_iff_palindrome hmir, fun u hu => ?_, fun u hu => ?_⟩
    · exact ⟨_, exec_intDecode_dout (i := .dec16M o) rfl rfl (hu.inside htl h)
        ((hl.of_sameRange hu).ofNat_loadValue_two_swapped nofun), rfl⟩
    · exact ⟨_, exec_intDecode_dout (i := .dec16L o) rfl rfl (hu.inside htm h)
        ((hm.of_sameRange hu).ofNat_loadValue_two_swapped nofun), rfl⟩
  · obtain ⟨tl, htl, -, hl⟩ := exec_intEncode_holdsLanes (i := .enc32L o) rfl h
    obtain ⟨tm, htm, -, hm⟩ := exec_intEncode_holdsLanes (i := .enc32M o) rfl h
    have hmir := hl.mirrored hm
    refine ⟨tl, tm, htl, htm, hmir, sameBytes_iff_palindrome hmir, fun u hu => ?_, fun u hu => ?_⟩
    · exact ⟨_, exec_intDecode_dout (i := .dec32M o) rfl rfl (hu.inside htl h)
        ((hl.of_sameRange hu).ofNat_loadValue_four_swapped nofun), rfl⟩
    · exact ⟨_, exec_intDecode_dout (i := .dec32L o) rfl rfl (hu.inside htm h)
        ((hm.of_sameRange hu).ofNat_loadValue_four_swapped nofun), rfl⟩

end Sys2Proof.Machine

/-! ## The F16 commands store and load two 16-bit fields (O29 to O32)

IP stands at o and SF at o+2, each in its order (41_fixed_point.md R130, R135). Both orders are one description by `lane`, and
each command is one equation on the state with these fields. -/

namespace Sys2Proof.Machine

section f16Fields
variable (ord : Order) (o : Nat) (ip sf : Half) (s : State)

theorem f16Put_readByte_ip {k : Nat} (hk : k < 2) :
    (f16Put ord o ip sf s).readByte (o + k) = ip.extractLsb' (8 * lane ord 2 k) 8 := by
  rw [f16Put_readByte, if_pos (by omega), Nat.add_sub_cancel_left, laneByte_toNat]

theorem f16Put_readByte_sf {k : Nat} (hk : k < 2) :
    (f16Put ord o ip sf s).readByte (o + 2 + k) = sf.extractLsb' (8 * lane ord 2 k) 8 := by
  rw [f16Put_readByte, if_neg (by omega), if_pos (by omega), Nat.add_sub_cancel_left, laneByte_toNat]

theorem f16Put_readByte_outside {a : Nat} (ha : a < o ∨ o + 4 ≤ a) :
    (f16Put ord o ip sf s).readByte a = s.readByte a := by
  rw [f16Put_readByte, if_neg (by omega), if_neg (by omega)]

/-- F16Put stores the two lanes of IP, then the two of SF (41_fixed_point.md R130). -/
theorem stores_f16Put :
    Stores s (f16Put ord o ip sf s) o
      [ip.extractLsb' (8 * lane ord 2 0) 8, ip.extractLsb' (8 * lane ord 2 1) 8,
        sf.extractLsb' (8 * lane ord 2 0) 8, sf.extractLsb' (8 * lane ord 2 1) 8] :=
  stores_four.2 ⟨f16Put_readByte_ip ord o ip sf s (k := 0) (by decide), f16Put_readByte_ip ord o ip sf s (k := 1) (by decide),
    f16Put_readByte_sf ord o ip sf s (k := 0) (by decide), f16Put_readByte_sf ord o ip sf s (k := 1) (by decide),
    fun _ ha => f16Put_readByte_outside ord o ip sf s ha⟩

/-- A half from its number. -/
theorem ofNat_toNat_half (x : Half) : BitVec.ofNat 16 x.toNat = x := by rw [BitVec.ofNat_toNat, BitVec.setWidth_eq]

/-- F16Get's integer part, lane 1 above lane 0 (R135). -/
theorem f16GetIp_eq : f16GetIp ord o s = s.readByte (o + lane ord 2 1) ++ s.readByte (o + lane ord 2 0) := by
  cases ord
  case lsbf => exact (congrArg _ (loadValue_lsbf_two o s)).trans (ofNat_toNat_half _)
  case msbf => exact (congrArg _ (loadValue_msbf_two o s)).trans (ofNat_toNat_half _)

/-- F16Get's scaled fraction is read as the integer part is, two bytes on (R135). -/
theorem f16GetSf_eq : f16GetSf ord o s = s.readByte (o + 2 + lane ord 2 1) ++ s.readByte (o + 2 + lane ord 2 0) :=
  f16GetIp_eq ord (o + 2) s

/-- A half is its two bytes. -/
theorem half_eq_append (x : Half) : x.extractLsb' (8 * 1) 8 ++ x.extractLsb' (8 * 0) 8 = x := by
  rw [BitVec.extractLsb'_append_extractLsb'_eq_extractLsb' (by decide), BitVec.extractLsb'_eq_self]

/-- F16Get reads back what F16Put stored, wherever the four bytes are the same (R135). -/
theorem f16Get_of_sameRange_f16Put {u : State} (hu : SameRange (f16Put ord o ip sf s) u o 4) :
    f16GetIp ord o u = ip ∧ f16GetSf ord o u = sf := by
  obtain ⟨hip, hsf⟩ := f16Get_congr ord o hu.2
  constructor
  · rw [hip, f16GetIp_eq, f16Put_readByte_ip _ _ _ _ _ (lane_lt ord (by decide)),
      f16Put_readByte_ip _ _ _ _ _ (lane_lt ord (by decide)), lane_lane ord (by decide), lane_lane ord (by decide),
      half_eq_append]
  · rw [hsf, f16GetSf_eq, f16Put_readByte_sf _ _ _ _ _ (lane_lt ord (by decide)),
      f16Put_readByte_sf _ _ _ _ _ (lane_lt ord (by decide)), lane_lane ord (by decide), lane_lane ord (by decide),
      half_eq_append]

/-- RAW holds IP above SF (10_state.md R29). -/
theorem raw_ip : (ip ++ sf).extractLsb' 16 16 = ip := BitVec.extractLsb'_append_eq_left

theorem raw_sf : (ip ++ sf).extractLsb' 0 16 = sf := BitVec.extractLsb'_append_eq_right

/-- RAW of a decode, byte by byte (10_state.md R29). -/
theorem raw_bytes (b3 b2 b1 b0 : Byte) : (b3 ++ b2) ++ (b1 ++ b0) = b3 ++ b2 ++ b1 ++ b0 :=
  (BitVec.append_assoc (x₁ := b3 ++ b2) (x₂ := b1) (x₃ := b0)).symm

/-- The bytes of DIN = {0, IP, SF} are those of the fields (41_fixed_point.md R130). -/
theorem din_bytes_of_fields :
    (0#32 ++ ip ++ sf).extractLsb' 24 8 = ip.extractLsb' 8 8 ∧ (0#32 ++ ip ++ sf).extractLsb' 16 8 = ip.extractLsb' 0 8 ∧
    (0#32 ++ ip ++ sf).extractLsb' 8 8 = sf.extractLsb' 8 8 ∧ (0#32 ++ ip ++ sf).extractLsb' 0 8 = sf.extractLsb' 0 8 := by
  simp (disch := decide) only [BitVec.extractLsb'_append_eq_of_le, BitVec.extractLsb'_append_eq_of_add_le,
    Nat.reduceSub, and_self]

end f16Fields

section f16Commands
variable {i : Instr} {s : State} {r : F16Fields}

theorem width_of_isF16 (hi : isF16 i = true) : width i = 4 := by
  cases i
  case encf16L | encf16M | decf16L | decf16M => rfl
  all_goals cases hi

/-- An F16 encode in bounds that F16Split accepts: RAW, STATUS and the four bytes, and nothing else (R140, R141). -/
theorem exec_f16Encode_stores (hi : isF16Encode i = true) (hin : i.offset + width i ≤ s.cfg.bufLen)
    (hr : f16Split s.cfg s.din = some r) :
    ∃ t, exec i s = .next t ∧ t = { s with mem := t.mem, raw := r.ip ++ r.sf, status := statusWord r.fw r.pl .ok } ∧
      Stores s t i.offset
        [r.ip.extractLsb' (8 * lane (order i) 2 0) 8, r.ip.extractLsb' (8 * lane (order i) 2 1) 8,
          r.sf.extractLsb' (8 * lane (order i) 2 0) 8, r.sf.extractLsb' (8 * lane (order i) 2 1) 8] :=
  ⟨_, exec_f16Encode_ok hi hin hr,
    congrArg (fun t => (t.setRaw (r.ip ++ r.sf)).setStatus (statusWord r.fw r.pl .ok)) (f16Put_frame ..),
    stores_f16Put (order i) i.offset r.ip r.sf s⟩

/-- An F16 decode in bounds of the fields IP and SF (R142, R143). -/
theorem exec_f16Decode_fields (hi : isDecode i = true) (hf : isF16 i = true) (hin : i.offset + width i ≤ s.cfg.bufLen)
    {ip sf : Half} (hip : f16GetIp (order i) i.offset s = ip) (hsf : f16GetSf (order i) i.offset s = sf) :
    exec i s = .next { s with dout := f16Join s.cfg.arith ip sf, raw := ip ++ sf, status := 0x00000000#32 } := by
  rw [exec_f16Decode hi hf hin, hip, hsf]
  rfl

/-- An F16 decode in the order of an F16 encode, wherever the four bytes are the same: RAW and STATUS after the encode, and
F16Join of the stored fields after the decode. -/
theorem f16Encode_then_f16Decode {o : Nat} {enc dec : Instr}
    (hpair : (enc = .encf16L o ∧ dec = .decf16L o) ∨ (enc = .encf16M o ∧ dec = .decf16M o))
    (hin : o + 4 ≤ s.cfg.bufLen) (hr : f16Split s.cfg s.din = some r) :
    ∃ t, exec enc s = .next t ∧ t.raw = r.ip ++ r.sf ∧ t.status = statusWord r.fw r.pl .ok ∧
      ∀ u, SameRange t u o 4 → ∃ y, exec dec u = .next y ∧ y.dout = f16Join s.cfg.arith r.ip r.sf := by
  obtain ⟨he, hd, hf, hord, hen, hdec⟩ : isF16Encode enc = true ∧ isDecode dec = true ∧ isF16 dec = true ∧
      order dec = order enc ∧ enc.offset = o ∧ dec.offset = o := by
    obtain ⟨rfl, rfl⟩ | ⟨rfl, rfl⟩ := hpair <;> exact ⟨rfl, rfl, rfl, rfl, rfl, rfl⟩
  have hinside : ∀ {i : Instr} {u : State}, isF16 i = true → i.offset = o → u.cfg = s.cfg →
      i.offset + width i ≤ u.cfg.bufLen := by
    intro i u hi ho hu
    rw [hu, ho, width_of_isF16 hi]
    exact hin
  refine ⟨_, exec_f16Encode_ok he (hinside (isF16_of_isF16Encode he) hen rfl) hr, rfl, rfl, fun u hu => ?_⟩
  have hput : SameRange (f16Put (order enc) o r.ip r.sf s) u o 4 := hen ▸ hu
  have hcfg : u.cfg = s.cfg := hput.1.trans (f16Put_cfg ..)
  obtain ⟨hip, hsf⟩ := f16Get_of_sameRange_f16Put (order enc) o r.ip r.sf s hput
  refine ⟨_, exec_f16Decode_fields hd hf (hinside hf hdec hcfg) ?_ ?_, by rw [hcfg]⟩
  · rw [hord, hdec, hip]
  · rw [hord, hdec, hsf]

/-- SCALE as a rational (00_scope.md R6). -/
theorem cast_scale : (scale : ℚ) = 100000 := by rw [scale, Nat.cast_ofNat]

theorem f16Value_eq (ip sf : Half) : f16Value ip sf = (ip.toInt : ℚ) + (sf.toNat : ℚ) / 100000 := by
  rw [f16Value, cast_scale]

/-- What F16Split returns where there is no cause of RANGE (41_fixed_point.md R131). -/
theorem f16Split_of_not_rangeCause {c : Cfg} {d : Dword} (h : ¬ RangeCause c d) :
    f16Split c d = some (f16FieldsOf (real d) (integerPart c.negMode (real d)) (scaledFraction c (real d))) := by
  obtain ⟨r, hr⟩ := Option.ne_none_iff_exists'.1 (mt (f16Split_eq_none c d).1 h)
  obtain ⟨-, -, hfields⟩ := f16Split_eq_some hr
  rw [hr, hfields]

end f16Commands

/-- Settles O29: OOB before F16Split, RANGE where it rejects DIN, and otherwise the lanes of its fields. -/
theorem encf16StoresFields : Obligations.Encf16StoresFields := fun o _ =>
  ⟨rfl, rfl, fun h => ⟨exec_outside h, exec_outside h⟩,
    fun h hr => ⟨exec_f16Encode_range (i := .encf16L o) rfl h hr, exec_f16Encode_range (i := .encf16M o) rfl h hr⟩,
    fun _ h hr => ⟨exec_f16Encode_stores (i := .encf16L o) rfl h hr, exec_f16Encode_stores (i := .encf16M o) rfl h hr⟩⟩

/-- Settles O30: no cause of RANGE means that F16Split accepts, and PL and FW compare the input with the stored fields. -/
theorem encf16CompletesWithoutRangeCause : Obligations.Encf16CompletesWithoutRangeCause := by
  intro o s hin hrange i hi
  obtain ⟨he, hin'⟩ : isF16Encode i = true ∧ i.offset + width i ≤ s.cfg.bufLen := by
    obtain rfl | rfl := hi <;> exact ⟨rfl, hin⟩
  refine ⟨_, exec_f16Encode_ok he hin' (f16Split_of_not_rangeCause hrange), rfl, ?_, ?_, ?_, ?_, ?_⟩
  · rw [setStatus_status, statusPl_statusWord, setStatus_raw, setRaw_raw, raw_ip, raw_sf, ← f16Value_eq]
    exact decide_eq_true_iff
  · rw [setStatus_status, statusFw_statusWord]
    exact decide_eq_true_iff
  all_goals simp [Code.bits]

/-- Settles O31: each field is lane 1 above lane 0 of its two bytes. -/
theorem decf16JoinsFields : Obligations.Decf16JoinsFields := by
  refine fun o s => ⟨rfl, rfl, fun h => ⟨?_, ?_⟩, fun h => ⟨exec_outside h, exec_outside h⟩⟩
  · rw [← raw_bytes]
    exact exec_f16Decode_fields (i := .decf16L o) rfl rfl h (f16GetIp_eq .lsbf o s) (f16GetSf_eq .lsbf o s)
  · rw [← raw_bytes]
    exact exec_f16Decode_fields (i := .decf16M o) rfl rfl h (f16GetIp_eq .msbf o s) (f16GetSf_eq .msbf o s)

/-- Settles O32: both commands store the same four bytes over the same buffer. -/
theorem encf16MBytesAreEnc32M : Obligations.Encf16MBytesAreEnc32M := by
  intro o s r hin hr
  obtain ⟨t, ht, -, hft⟩ := exec_f16Encode_stores (i := .encf16M o) rfl hin hr
  obtain ⟨u, hu, -, hfu⟩ := exec_intEncode_stores (s := { s with din := 0#32 ++ r.ip ++ r.sf }) (i := .enc32M o) rfl hin
  obtain ⟨h3, h2, h1, h0⟩ := din_bytes_of_fields r.ip r.sf
  have hbytes : Stores s u o
      [r.ip.extractLsb' 8 8, r.ip.extractLsb' 0 8, r.sf.extractLsb' 8 8, r.sf.extractLsb' 0 8] := by
    rw [← h3, ← h2, ← h1, ← h0]
    exact hfu
  exact ⟨t, u, ht, hu, fun a => (hbytes a).trans (hft a).symm⟩

end Sys2Proof.Machine

/-! ## The scaler's fraction and its ranges (O36 to O38)

The fraction that F16Split scales lies within 1 of 0, and rounding does not cross a finite value, so neither product leaves its
range. Under TRUNC the fraction is a multiple of the input's unit and no larger than the input, so it has as few bits. -/

namespace Sys2Proof.Machine

section fraction
variable {x : ℚ}

theorem sub_floor_mem_Ico (x : ℚ) : x - x.floor ∈ Set.Ico (0 : ℚ) 1 :=
  ⟨sub_nonneg.2 (Rat.floor_le x), by linarith [Rat.lt_floor (x := x)]⟩

theorem truncRat_of_nonneg (h : 0 ≤ x) : truncRat x = x.floor := if_pos h

theorem truncRat_of_neg (h : x < 0) : truncRat x = -(-x).floor := if_neg h.not_ge

/-- Both settings of NEG_MODE agree on a non-negative input (00_scope.md R7). -/
theorem integerPart_of_nonneg (mode : NegMode) (h : 0 ≤ x) : integerPart mode x = x.floor := by
  cases mode
  case trunc => exact truncRat_of_nonneg h
  case floor => rfl

/-- The fraction is not negative under FLOOR or of a non-negative input (41_fixed_point.md R131). -/
theorem sub_integerPart_mem_Ico {mode : NegMode} (h : mode = .floor ∨ 0 ≤ x) :
    x - (integerPart mode x : ℚ) ∈ Set.Ico (0 : ℚ) 1 := by
  obtain rfl | h := h
  · exact sub_floor_mem_Ico x
  · rw [integerPart_of_nonneg mode h]
    exact sub_floor_mem_Ico x

/-- The fraction of a negative input is not positive under TRUNC (41_fixed_point.md R131). -/
theorem sub_truncRat_mem_Ioc_of_neg (h : x < 0) : x - (truncRat x : ℚ) ∈ Set.Ioc (-1 : ℚ) 0 := by
  obtain ⟨h0, h1⟩ := sub_floor_mem_Ico (-x)
  rw [truncRat_of_neg h]
  push_cast
  constructor <;> linarith

theorem truncRat_nonpos_of_neg (h : x < 0) : truncRat x ≤ 0 := by
  rw [truncRat_of_neg h, neg_nonpos, Rat.le_floor_iff]
  push_cast
  linarith

/-- Truncation does not enlarge: the fraction is no farther from 0 than the input. -/
theorem abs_sub_truncRat_le (x : ℚ) : |x - (truncRat x : ℚ)| ≤ |x| := by
  rcases lt_or_ge x 0 with h | h
  · have ht : (truncRat x : ℚ) ≤ 0 := by exact_mod_cast truncRat_nonpos_of_neg h
    rw [abs_of_nonpos (sub_truncRat_mem_Ioc_of_neg h).2, abs_of_neg h]
    linarith
  · have ht : (0 : ℚ) ≤ x.floor := by exact_mod_cast Rat.le_floor_iff.2 (by exact_mod_cast h)
    rw [truncRat_of_nonneg h, abs_of_nonneg (sub_floor_mem_Ico x).1, abs_of_nonneg h]
    linarith

end fraction

section product

/-- What the scaler rounds lies far inside the range that RNE64 is described for (00_scope.md R14). -/
theorem lt_rne64_range {x : ℚ} (h : x ≤ 2 ^ 17) : x < 2 ^ 1023 :=
  h.trans_lt (pow_lt_pow_right₀ one_lt_two (by decide))

/-- Rounding keeps a bound on the magnitude that both signs of a finite pattern have. -/
theorem abs_real_rne64_le {q K : ℚ} {a b : Dword} (ha : isFinite a = true) (hb : isFinite b = true)
    (hra : real a = -K) (hrb : real b = K) (hK : K ≤ 2 ^ 17) (h : |q| ≤ K) : |real (rne64 q)| ≤ K := by
  have hq := lt_rne64_range (h.trans hK)
  obtain ⟨hlow, hhigh⟩ := abs_le.1 h
  exact abs_le.2 ⟨hra ▸ le_real_rne64 hq ha (hra ▸ hlow), hrb ▸ real_rne64_le hq hb (hrb ▸ hhigh)⟩

theorem abs_real_rne64_le_one {q : ℚ} (h : |q| ≤ 1) : |real (rne64 q)| ≤ 1 :=
  abs_real_rne64_le (a := 0xBFF0000000000000#64) (b := 0x3FF0000000000000#64) (by decide) (by decide)
    (by decide +kernel) (by decide +kernel) (by norm_num) h

theorem abs_real_rne64_le_scale {q : ℚ} (h : |q| ≤ 100000) : |real (rne64 q)| ≤ 100000 :=
  abs_real_rne64_le (a := 0xC0F86A0000000000#64) (b := 0x40F86A0000000000#64) (by decide) (by decide)
    (by decide +kernel) (by decide +kernel) (by norm_num) h

theorem abs_mul_scale_le {x : ℚ} (h : |x| ≤ 1) : |x * (scale : ℚ)| ≤ 100000 := by
  rw [abs_mul, Nat.abs_cast, cast_scale]
  linarith

/-- The scaled product of a fraction stays within SCALE of 0 (41_fixed_point.md R131). -/
theorem abs_scaledProduct_le (a : Arith) {fr : ℚ} (h : |fr| ≤ 1) : |scaledProduct a fr| ≤ 100000 := by
  cases a
  case exact => exact abs_mul_scale_le h
  case binary64 => exact abs_real_rne64_le_scale (abs_mul_scale_le (abs_real_rne64_le_one h))

theorem scaledFraction_nonneg (c : Cfg) (x : ℚ) : 0 ≤ scaledFraction c x := Int.emod_nonneg _ (by decide)

end product

/-- Settles O36: the fraction lies within 1 of 0, and neither rounding leaves the range of its operand. -/
theorem scalerStaysInRange : Obligations.ScalerStaysInRange := by
  intro c d _
  refine ⟨sub_integerPart_mem_Ico, fun hmode hneg => ?_,
    abs_scaledProduct_le c.arith (abs_sub_integerPart_lt_one c.negMode (real d)).le, scaledFraction_nonneg c (real d),
    Int.le_sub_one_of_lt (scaledFraction_lt_scale c (real d))⟩
  rw [hmode]
  exact sub_truncRat_mem_Ioc_of_neg hneg

/-- The fraction of a binary64 value is an integer of at most 53 bits times a power of two (41_fixed_point.md R132). -/
theorem sub_truncRat_dyadic {d : Dword} (hd : isFinite d = true) :
    ∃ m v : ℤ, |m| < 2 ^ 53 ∧ -1074 ≤ v ∧ real d - (truncRat (real d) : ℚ) = m * 2 ^ v := by
  obtain ⟨m, v, hm, hv, -, hreal⟩ := real_dyadic hd
  have hle := abs_sub_truncRat_le (real d)
  have hlt := abs_sub_integerPart_lt_one .trunc (real d)
  rw [integerPart] at hlt
  generalize truncRat (real d) = t at *
  rcases le_total 0 v with hv0 | hv0
  · obtain ⟨j, rfl⟩ := Int.eq_ofNat_of_zero_le hv0
    have hint : real d - (t : ℚ) = ((m * 2 ^ j - t : ℤ) : ℚ) := by
      rw [hreal, zpow_natCast]; push_cast; rfl
    refine ⟨m * 2 ^ j - t, 0, ?_, by decide, by rw [hint, zpow_zero, mul_one]⟩
    rw [hint] at hlt
    exact lt_trans (by exact_mod_cast hlt) (by decide : (1 : ℤ) < 2 ^ 53)
  · obtain ⟨j, hj⟩ := Int.eq_ofNat_of_zero_le (neg_nonneg.2 hv0)
    have hunit : (2 : ℚ) ^ j * 2 ^ v = 1 := by
      rw [← zpow_natCast, ← zpow_add₀ two_ne_zero, show (j : ℤ) + v = 0 by omega, zpow_zero]
    have hfr : real d - (t : ℚ) = ((m - t * 2 ^ j : ℤ) : ℚ) * 2 ^ v := by
      rw [hreal]; push_cast; linear_combination (t : ℚ) * hunit
    refine ⟨m - t * 2 ^ j, v, ?_, hv, hfr⟩
    have hpos : (0 : ℚ) < 2 ^ v := by positivity
    rw [hfr, hreal, abs_mul, abs_mul, mul_le_mul_iff_left₀ (abs_pos.2 hpos.ne')] at hle
    exact lt_of_le_of_lt (by exact_mod_cast hle) hm

/-- Settles O37: RNE64 is exact on the fraction's few bits. -/
theorem truncFractionIsExact : Obligations.TruncFractionIsExact := by
  intro d hd
  obtain ⟨m, v, hm, hv, hfr⟩ := sub_truncRat_dyadic hd
  have hlt : |real d - (truncRat (real d) : ℚ)| < 2 ^ 1023 :=
    lt_rne64_range ((abs_sub_integerPart_lt_one .trunc (real d)).le.trans (by norm_num))
  rw [hfr] at hlt ⊢
  exact real_rne64_of_dyadic hm hv hlt

/-- The low 16 bits of an integer below 2^15 do not stand for less: a wrapped one comes back from below (00_scope.md R9). -/
theorem le_toInt_ofInt {t : ℤ} (h : t < 2 ^ 15) : t ≤ (BitVec.ofInt 16 t).toInt := by
  rw [BitVec.toInt_ofInt, Int.bmod_def]
  split_ifs <;> omega

theorem toInt_le_f16Value (ip sf : Half) : (ip.toInt : ℚ) ≤ f16Value ip sf := by
  rw [f16Value_eq]
  exact le_add_of_nonneg_right (by positivity)

/-- Settles O38: the stored integer part is not below trunc(X), the stored fraction is not negative, and X is below trunc(X). -/
theorem negativeTruncIsNotTheInput : Obligations.NegativeTruncIsNotTheInput := by
  intro c d r hmode hneg hnonint hr
  obtain ⟨-, -, rfl⟩ := f16Split_eq_some hr
  rw [hmode]
  have hlt : real d < (truncRat (real d) : ℚ) :=
    lt_of_le_of_ne (sub_nonpos.1 (sub_truncRat_mem_Ioc_of_neg hneg).2) hnonint
  have hip : (truncRat (real d) : ℚ) ≤ (BitVec.ofInt 16 (truncRat (real d))).toInt := by
    exact_mod_cast le_toInt_ofInt ((truncRat_nonpos_of_neg hneg).trans_lt (by decide))
  have hle := hip.trans (toInt_le_f16Value _ (BitVec.ofInt 16 (scaledFraction c (real d))))
  exact ⟨hle, hlt.trans_le hle, decide_eq_true (hlt.trans_le hle).ne⟩

end Sys2Proof.Machine

/-! ## F16Join is finite and bounded (O40), and re-encoding its result can lose a unit (O41)

F16Join rounds IP plus a fraction, which under BINARY64 is itself rounded. The sum lies between finite values with the claimed
bounds, and a negative sum is at most -1/4, so it does not round to -0. -/

namespace Sys2Proof.Machine

/-- What F16Join adds to the integer part (41_fixed_point.md R134). -/
def joinFraction (a : Arith) (sf : Half) : ℚ :=
  match a with
  | .binary64 => real (rne64 ((sf.toNat : ℚ) / (scale : ℚ)))
  | .exact => (sf.toNat : ℚ) / (scale : ℚ)

theorem f16Join_eq (a : Arith) (ip sf : Half) : f16Join a ip sf = rne64 ((ip.toInt : ℚ) + joinFraction a sf) := by
  cases a <;> rfl

@[simp] theorem joinFraction_zero (a : Arith) : joinFraction a 0#16 = 0 := by
  cases a <;> simp [joinFraction]

theorem div_scale_mem_Icc (sf : Half) : (sf.toNat : ℚ) / (scale : ℚ) ∈ Set.Icc (0 : ℚ) (65535 / 100000) := by
  have hsf : (sf.toNat : ℚ) ≤ 65535 := by exact_mod_cast Nat.le_of_lt_succ sf.isLt
  rw [cast_scale]
  exact ⟨by positivity, by gcongr⟩

/-- The fraction lies between 0 and the pattern next above 0.65535. -/
theorem joinFraction_mem_Icc (a : Arith) (sf : Half) :
    joinFraction a sf ∈ Set.Icc 0 (real 0x3FE4F8A0902DE00E#64) := by
  obtain ⟨h0, h1⟩ := div_scale_mem_Icc sf
  have hup : (65535 / 100000 : ℚ) ≤ real 0x3FE4F8A0902DE00E#64 := by decide +kernel
  cases a
  case exact => exact ⟨h0, h1.trans hup⟩
  case binary64 => exact real_rne64_mem_Icc (by decide) (by decide +kernel) ⟨h0, h1.trans hup⟩

/-- The exact sum that F16Join rounds lies in its claimed range (R134). -/
theorem joinSum_mem_Icc (a : Arith) (ip sf : Half) :
    (ip.toInt : ℚ) + joinFraction a sf ∈ Set.Icc (-32768 : ℚ) (real 0x40DFFFE9F141205C#64) := by
  obtain ⟨h0, h1⟩ := joinFraction_mem_Icc a sf
  have hlow : (-32768 : ℚ) ≤ ip.toInt := by exact_mod_cast ip.le_toInt
  have hhigh : (ip.toInt : ℚ) ≤ 32767 := by exact_mod_cast Int.le_of_lt_add_one ip.toInt_lt
  have hmax : 32767 + real 0x3FE4F8A0902DE00E#64 ≤ real 0x40DFFFE9F141205C#64 := by decide +kernel
  constructor <;> linarith

theorem abs_joinSum_le (a : Arith) (ip sf : Half) : |(ip.toInt : ℚ) + joinFraction a sf| ≤ 2 ^ 16 := by
  obtain ⟨hlow, hhigh⟩ := joinSum_mem_Icc a ip sf
  have hmax : real 0x40DFFFE9F141205C#64 < 2 ^ 15 := by decide +kernel
  exact abs_le.2 ⟨by linarith, by linarith⟩

/-- A sum below 0 has a negative integer part, so it is at most -1/4. -/
theorem joinSum_le_of_neg {a : Arith} {ip sf : Half} (h : (ip.toInt : ℚ) + joinFraction a sf < 0) :
    (ip.toInt : ℚ) + joinFraction a sf ≤ -1 / 4 := by
  obtain ⟨h0, h1⟩ := joinFraction_mem_Icc a sf
  have hip : ip.toInt < 0 := by exact_mod_cast (by linarith : (ip.toInt : ℚ) < 0)
  have hip' : (ip.toInt : ℚ) ≤ -1 := by exact_mod_cast Int.le_sub_one_of_lt hip
  have hmax : real 0x3FE4F8A0902DE00E#64 ≤ 3 / 4 := by decide +kernel
  linarith

/-- The sign bit RNE64 gives. -/
theorem rne64_sign (q : ℚ) : (rne64 q).getLsbD 63 = decide (q < 0) := by
  unfold rne64
  split_ifs with h
  · simp [h]
  · rw [BitVec.getLsbD_append, if_neg (by decide)]
    simp

/-- RNE64 of a number that is not near 0 from below is not -0. -/
theorem rne64_ne_negZero {q : ℚ} (hq : |q| < 2 ^ 1023) (h : q < 0 → q ≤ -1 / 4) : rne64 q ≠ 0x8000000000000000#64 := by
  intro he
  have hneg : q < 0 := of_decide_eq_true ((rne64_sign q).symm.trans (by rw [he]; decide))
  have hquarter : real 0xBFD0000000000000#64 = -1 / 4 := by decide +kernel
  have hle := real_rne64_le hq (d := 0xBFD0000000000000#64) (by decide) (hquarter ▸ h hneg)
  have hzero : real 0x8000000000000000#64 = 0 := by decide +kernel
  rw [he, hzero, hquarter] at hle
  norm_num at hle

/-- Settles O40: the sum lies in the range, and RNE64 does not cross its ends, which are finite values. -/
theorem joinIsFiniteAndBounded : Obligations.JoinIsFiniteAndBounded := by
  intro a ip sf
  obtain ⟨hlow, hhigh⟩ := joinSum_mem_Icc a ip sf
  have hq : |(ip.toInt : ℚ) + joinFraction a sf| < 2 ^ 1023 :=
    lt_rne64_range ((abs_joinSum_le a ip sf).trans (by norm_num))
  have hmin : real 0xC0E0000000000000#64 = -32768 := by decide +kernel
  rw [f16Join_eq]
  exact ⟨(roundingIsNearestEven.2 _ hq).1, rne64_ne_negZero hq joinSum_le_of_neg,
    hmin ▸ le_real_rne64 hq (by decide) (hmin ▸ hlow), real_rne64_le hq (by decide) hhigh⟩

/-- Settles O41: the model evaluated on vectors V-F16D-7 and V-F16-8. -/
theorem decodeThenEncodeCanLoseAUnit : Obligations.DecodeThenEncodeCanLoseAUnit := by
  refine ⟨fun a => ?_, by decide +kernel, by decide +kernel⟩
  cases a <;> decide +kernel

end Sys2Proof.Machine

/-! ## Integral inputs are exact (O33), and the fixed-point round trip (O34)

Inputs with an integer part in int16 and a scaled fraction below 65536 have no cause of RANGE. An integral input scales to 0
exactly. In a round trip each rounding is off by at most 2^-53 of a power of two at or above its operand, and a fraction below
0.65536 has a scaled product more than half a place below 65536, so rounding does not carry it there. -/

namespace Sys2Proof.Machine

/-- STATUS of a command that completes with no flag, and with PL alone (10_state.md R25). -/
theorem statusWord_ok : statusWord false false .ok = 0x00000000#32 := by decide

theorem statusWord_loss : statusWord false true .ok = 0x00000010#32 := by decide

section accepted
variable {c : Cfg} {d : Dword}

/-- A finite input whose integer part and scaled fraction fit has no cause of RANGE (60_exceptions.md R161). -/
theorem not_rangeCause (hd : isFinite d = true) (hlow : -32768 ≤ integerPart c.negMode (real d))
    (hhigh : integerPart c.negMode (real d) ≤ 32767) (hm : scaledFraction c (real d) < 65536) : ¬ RangeCause c d := by
  have he : expField d ≠ 0x7FF := by simpa [isFinite] using hd
  rintro (hnan | hinf | ⟨-, hint⟩ | ⟨-, hfrac⟩)
  · rw [isNaN, Bool.and_eq_true, beq_iff_eq] at hnan
    exact he hnan.1
  · rw [isInf, Bool.and_eq_true, beq_iff_eq] at hinf
    exact he hinf.1
  · omega
  · omega

theorem toInt_ofInt_of_int16 {t : ℤ} (hlow : -32768 ≤ t) (hhigh : t ≤ 32767) : (BitVec.ofInt 16 t).toInt = t :=
  BitVec.toInt_ofInt_eq_self (by decide) hlow (Int.lt_add_one_of_le hhigh)

/-- Both settings of NEG_MODE leave an integer as it is. -/
theorem integerPart_intCast (mode : NegMode) (x : ℤ) : integerPart mode (x : ℚ) = x := by
  cases mode
  case floor => exact Rat.floor_intCast x
  case trunc =>
    rw [integerPart, truncRat, ← Int.cast_neg, Rat.floor_intCast, Rat.floor_intCast]
    split_ifs <;> omega

theorem scaledProduct_zero (a : Arith) : scaledProduct a 0 = 0 := by
  cases a <;> simp [scaledProduct]

theorem scaledFraction_intCast (c : Cfg) (x : ℤ) : scaledFraction c (x : ℚ) = 0 := by
  rw [scaledFraction, integerPart_intCast, sub_self, scaledProduct_zero]
  rfl

/-- F16Split of an integer in int16: no fraction and no flag (41_fixed_point.md R145). -/
theorem f16Split_of_intCast (hd : isFinite d = true) {x : ℤ} (hx : real d = x) (hlow : -32768 ≤ x) (hhigh : x ≤ 32767) :
    f16Split c d = some ⟨BitVec.ofInt 16 x, 0#16, false, false⟩ := by
  have hint : integerPart c.negMode (real d) = x := hx ▸ integerPart_intCast c.negMode x
  have hfrac : scaledFraction c (real d) = 0 := hx ▸ scaledFraction_intCast c x
  have hvalue : (x : ℚ) = f16Value (BitVec.ofInt 16 x) (BitVec.ofInt 16 0) := by
    rw [f16Value_eq, toInt_ofInt_of_int16 hlow hhigh]
    simp
  rw [f16Split_of_not_rangeCause (not_rangeCause hd (by omega) (by omega) (by omega)), hint, hfrac, hx, f16FieldsOf,
    ← hvalue]
  simp

/-- F16Join of an integer with no fraction is that integer (R145). -/
theorem f16Join_of_int16 (a : Arith) {x : ℤ} (hlow : -32768 ≤ x) (hhigh : x ≤ 32767) :
    f16Join a (BitVec.ofInt 16 x) 0#16 = rne64 x ∧ isFinite (rne64 x) = true ∧ real (rne64 x) = x := by
  have habs : |x| < 2 ^ 53 := abs_lt.2 ⟨by omega, by omega⟩
  have hlt : |(x : ℚ) * 2 ^ (0 : ℤ)| < 2 ^ 1023 := by
    rw [zpow_zero, mul_one]
    exact lt_rne64_range (by exact_mod_cast (abs_le.2 ⟨by omega, by omega⟩ : |x| ≤ 2 ^ 17))
  have hexact := real_rne64_of_dyadic habs (by decide) hlt
  rw [zpow_zero, mul_one] at hlt hexact
  refine ⟨?_, (roundingIsNearestEven.2 _ hlt).1, hexact⟩
  rw [f16Join_eq, joinFraction_zero, add_zero, toInt_ofInt_of_int16 hlow hhigh]

end accepted

/-- Settles O33: F16Split keeps the integer with no fraction, and F16Join rounds it exactly. -/
theorem integralInputsAreExact : Obligations.IntegralInputsAreExact := by
  intro o s x hin hd hx hlow hhigh enc dec hpair
  obtain ⟨t, ht, hraw, hstatus, hdecode⟩ :=
    f16Encode_then_f16Decode hpair hin (f16Split_of_intCast (c := s.cfg) hd hx hlow hhigh)
  obtain ⟨hjoin, hfinite, hreal⟩ := f16Join_of_int16 s.cfg.arith hlow hhigh
  refine ⟨t, ht, hraw, hstatus.trans statusWord_ok, fun u hu => ?_⟩
  obtain ⟨y, hy, hdout⟩ := hdecode u hu
  rw [hjoin] at hdout
  refine ⟨y, hy, hdout ▸ hfinite, hdout ▸ hreal, fun h0 => ?_⟩
  rw [hdout, h0, Int.cast_zero, rne64_zero]

section rounding

theorem real_rne64_nonneg {q : ℚ} (h : 0 ≤ q) (hq : |q| < 2 ^ 1023) : 0 ≤ real (rne64 q) := by
  rw [← real_zero] at h ⊢
  exact le_real_rne64 hq (by decide) h

/-- The rounding error is at most 2^-53 of a power of two at or above the number. -/
theorem abs_real_rne64_sub_le {q : ℚ} {e : ℤ} (hlow : -1022 ≤ e) (hhigh : e < 1023) (hq : |q| ≤ 2 ^ e) :
    |real (rne64 q) - q| ≤ 2 ^ (e - 53) := by
  by_cases h0 : q = 0
  · rw [h0, rne64_zero, real_zero, sub_zero, abs_zero]
    positivity
  have hlt : |q| < 2 ^ 1023 := hq.trans_lt (by exact_mod_cast zpow_lt_zpow_right₀ (one_lt_two (α := ℚ)) hhigh)
  obtain ⟨u, Z, hmid, -, hreal, hhalf, -⟩ := rne64_spec_int h0 hlt
  have hu : u ≤ e - 52 := by
    rcases hmid with rfl | hmid
    · omega
    · have := (zpow_le_zpow_iff_right₀ (one_lt_two (α := ℚ))).1 (hmid.trans hq)
      omega
  calc |real (rne64 q) - q| = 2 ^ u * |q / 2 ^ u - Z| := by rw [hreal, abs_mul_sub_eq (by positivity)]
    _ ≤ 2 ^ (e - 52) * (1 / 2) := by gcongr; exact one_le_two
    _ = 2 ^ (e - 53) := by rw [show e - 52 = e - 53 + 1 by omega, zpow_add₀ two_ne_zero]; ring

/-- A number more than half a place below 65536 is not rounded up to it. -/
theorem real_rne64_lt_65536 {q : ℚ} (h0 : 0 ≤ q) (h : q < 65536 - 1 / 2 ^ 38) : real (rne64 q) < 65536 := by
  have hq : |q| < 2 ^ 1023 := lt_rne64_range (by rw [abs_of_nonneg h0]; linarith)
  have hpred : real 0x40EFFFFFFFFFFFFF#64 = 65536 - 1 / 2 ^ 37 := by decide +kernel
  have hnear := (roundingIsNearestEven.2 q hq).2.1 0x40EFFFFFFFFFFFFF#64 (by decide)
  rw [hpred] at hnear
  by_contra hge
  have hup : 65536 - q ≤ |real (rne64 q) - q| := by linarith [le_abs_self (real (rne64 q) - q), not_lt.1 hge]
  have hdown : |65536 - 1 / 2 ^ 37 - q| < 65536 - q := abs_lt.2 ⟨by linarith, by linarith⟩
  linarith

end rounding

section roundTrip

/-- The scaled product of a binary64 fraction below 0.65536 is more than half a place below 65536: from 1/2 on such a fraction
is a multiple of 2^-53, and the greatest of them is far enough below 0.65536. -/
theorem mul_scale_lt {f : Dword} (hf : isFinite f = true) (h : real f < 65536 / 100000) :
    real f * (scale : ℚ) < 65536 - 1 / 2 ^ 38 := by
  rw [cast_scale]
  rcases real_multiple_or_small hf (-53) with ⟨M, hM⟩ | ⟨-, hsmall⟩
  · have hunit : real f * 2 ^ 53 = M := by
      rw [hM, mul_assoc, zpow_neg, ← zpow_natCast, Nat.cast_ofNat, inv_mul_cancel₀ (by positivity), mul_one]
    have hlt : M * 100000 < 2 ^ 69 := by
      have : (M : ℚ) * 100000 < 2 ^ 69 := by rw [← hunit]; linarith
      exact_mod_cast this
    have hle : (M : ℚ) ≤ 5902958103587056 := by exact_mod_cast (by omega : M ≤ 5902958103587056)
    linarith
  · have hhalf : real f < 1 / 2 := (abs_lt.1 hsmall).2.trans_eq (by norm_num)
    linarith

/-- The scaled product of a binary64 fraction in [0, 0.65536): it fits 16 bits, and its rounding error is small
(41_fixed_point.md R131, R144). -/
theorem scaledProduct_spec (a : Arith) {fr : ℚ} (hexact : real (rne64 fr) = fr)
    (h : fr ∈ Set.Ico (0 : ℚ) (65536 / 100000)) :
    scaledProduct a fr ∈ Set.Ico (0 : ℚ) 65536 ∧ |scaledProduct a fr - fr * 100000| ≤ 1 / 2 ^ 36 := by
  obtain ⟨h0, h1⟩ := h
  cases a
  case exact =>
    rw [scaledProduct, cast_scale, sub_self, abs_zero]
    exact ⟨⟨by linarith, by linarith⟩, by positivity⟩
  case binary64 =>
    have hfr : |fr| < 2 ^ 1023 := lt_rne64_range (by rw [abs_of_nonneg h0]; linarith)
    have hlt := mul_scale_lt (roundingIsNearestEven.2 fr hfr).1 (hexact.symm ▸ h1)
    rw [hexact, cast_scale] at hlt
    rw [scaledProduct, hexact, cast_scale]
    have hp0 : 0 ≤ fr * 100000 := by linarith
    have habs : |fr * 100000| ≤ 2 ^ (17 : ℤ) := by
      rw [abs_of_nonneg hp0]
      linarith
    have herror := abs_real_rne64_sub_le (by decide) (by decide) habs
    have hlow := real_rne64_nonneg hp0 (lt_rne64_range (by exact_mod_cast habs))
    exact ⟨⟨hlow, real_rne64_lt_65536 hp0 hlt⟩, herror.trans (by norm_num)⟩

/-- A scaled product that fits 16 bits gives its floor as the scaled fraction. -/
theorem scaledFraction_eq_floor {c : Cfg} {x : ℚ}
    (h : scaledProduct c.arith (x - (integerPart c.negMode x : ℚ)) ∈ Set.Ico (0 : ℚ) 65536) :
    scaledFraction c x = (scaledProduct c.arith (x - (integerPart c.negMode x : ℚ))).floor ∧
      scaledFraction c x < 65536 := by
  have hf0 := Rat.le_floor_iff.2 (by exact_mod_cast h.1 : ((0 : ℤ) : ℚ) ≤ _)
  have hf1 := Rat.floor_lt_iff.2 (by exact_mod_cast h.2 : _ < ((65536 : ℤ) : ℚ))
  rw [scaledFraction, scale, Int.emod_eq_of_lt hf0 (by omega)]
  exact ⟨rfl, hf1⟩

/-- The value of an F16 whose integer part and scaled fraction were not wrapped. -/
theorem f16Value_ofInt {t m : ℤ} (ht0 : -32768 ≤ t) (ht1 : t ≤ 32767) (hm0 : 0 ≤ m) (hm1 : m < 65536) :
    f16Value (BitVec.ofInt 16 t) (BitVec.ofInt 16 m) = t + m / 100000 := by
  have hm : ((BitVec.ofInt 16 m).toNat : ℤ) = m := by
    rw [BitVec.toNat_ofInt]
    omega
  rw [f16Value_eq, toInt_ofInt_of_int16 ht0 ht1, ← Int.cast_natCast, hm]

/-- F16Join is near the value of the F16: each of its two roundings is off by little (R134). -/
theorem abs_real_f16Join_sub_le (a : Arith) (ip sf : Half) :
    |real (f16Join a ip sf) - f16Value ip sf| ≤ 1 / 2 ^ 36 := by
  obtain ⟨h0, h1⟩ := div_scale_mem_Icc sf
  have hfraction : |joinFraction a sf - (sf.toNat : ℚ) / (scale : ℚ)| ≤ 1 / 2 ^ 53 := by
    cases a
    case exact => rw [joinFraction, sub_self, abs_zero]; positivity
    case binary64 =>
      refine (abs_real_rne64_sub_le (e := 0) (by decide) (by decide) ?_).trans (by norm_num)
      rw [abs_of_nonneg h0, zpow_zero]
      exact h1.trans (by norm_num)
  have hsum : |real (f16Join a ip sf) - ((ip.toInt : ℚ) + joinFraction a sf)| ≤ 1 / 2 ^ 37 := by
    rw [f16Join_eq]
    exact (abs_real_rne64_sub_le (e := 16) (by decide) (by decide) (abs_joinSum_le a ip sf)).trans (by norm_num)
  calc |real (f16Join a ip sf) - f16Value ip sf|
      = |(real (f16Join a ip sf) - ((ip.toInt : ℚ) + joinFraction a sf)) +
          (joinFraction a sf - (sf.toNat : ℚ) / (scale : ℚ))| := by rw [f16Value]; congr 1; ring
    _ ≤ 1 / 2 ^ 37 + 1 / 2 ^ 53 := (abs_add_le _ _).trans (add_le_add hsum hfraction)
    _ ≤ 1 / 2 ^ 36 := by norm_num

/-- The value stored for an input `x` with integer part `t`: its floor loses less than 1/SCALE, and it is as near above as the
scaled product `p` is (41_fixed_point.md R131). -/
theorem stored_value_bounds {t : ℤ} {x p ε : ℚ} (h : |p - (x - t) * 100000| ≤ ε) :
    x - 1 / 100000 - ε < t + (p.floor : ℚ) / 100000 ∧ t + (p.floor : ℚ) / 100000 ≤ x + ε := by
  obtain ⟨hlow, hhigh⟩ := abs_le.1 h
  have hε := (abs_nonneg _).trans h
  have hle := Rat.floor_le p
  have hlt := Rat.lt_floor (x := p)
  constructor <;> linarith

/-- F16Split in the domain of the round trip: FW = 0, and the stored value is near the input, and not above it under EXACT
(R144). -/
theorem f16Split_roundTrip (c : Cfg) {d : Dword} (hd : isFinite d = true) (h0 : 0 ≤ real d) (h1 : real d < 32768)
    (hfr : real d - (truncRat (real d) : ℚ) < 65536 / 100000) :
    ∃ r, f16Split c d = some r ∧ r.fw = false ∧ |f16Value r.ip r.sf - real d| < 1 / 100000 + 1 / 2 ^ 36 ∧
      (c.arith = .exact → real d - 1 / 100000 < f16Value r.ip r.sf ∧ f16Value r.ip r.sf ≤ real d) := by
  have hint := integerPart_of_nonneg c.negMode h0
  have hexact := truncFractionIsExact d hd
  rw [truncRat_of_nonneg h0, ← hint] at hfr hexact
  have ht0 : 0 ≤ integerPart c.negMode (real d) := hint ▸ Rat.le_floor_iff.2 (by exact_mod_cast h0)
  have ht1 : integerPart c.negMode (real d) < 32768 := hint ▸ Rat.floor_lt_iff.2 (by exact_mod_cast h1)
  obtain ⟨hp, hnear⟩ := scaledProduct_spec c.arith hexact ⟨(sub_integerPart_mem_Ico (.inr h0)).1, hfr⟩
  obtain ⟨hm, hm1⟩ := scaledFraction_eq_floor hp
  have hvalue := f16Value_ofInt (by omega) (by omega : integerPart c.negMode (real d) ≤ 32767)
    (scaledFraction_nonneg c (real d)) hm1
  refine ⟨_, f16Split_of_not_rangeCause (not_rangeCause hd (by omega) (by omega) hm1),
    decide_eq_false (not_le.2 hm1), ?_⟩
  rw [f16FieldsOf, hvalue, hm]
  refine ⟨?_, fun harith => ?_⟩
  · obtain ⟨hlow, hhigh⟩ := stored_value_bounds hnear
    exact abs_lt.2 ⟨by linarith, by linarith⟩
  · rw [harith, scaledProduct, cast_scale]
    have h := stored_value_bounds (t := integerPart c.negMode (real d)) (x := real d) (by rw [sub_self, abs_zero])
    rwa [sub_zero, add_zero] at h

end roundTrip

/-- Settles O34: the stored value is near the input, and F16Join near the stored value. -/
theorem fixedPointRoundTrip : Obligations.FixedPointRoundTrip := by
  intro o s hin hd h0 h1 hfr enc dec hpair
  obtain ⟨r, hr, hfw, hnear, hexact⟩ := f16Split_roundTrip s.cfg hd h0 h1 hfr
  obtain ⟨t, ht, hraw, hstatus, hdecode⟩ := f16Encode_then_f16Decode hpair hin hr
  refine ⟨t, ht, ?_, ?_, fun u hu => ?_⟩
  · rw [hstatus, hfw]
    cases r.pl
    case true => exact .inl statusWord_loss
    case false => exact .inr statusWord_ok
  · rw [hraw, raw_ip, raw_sf]
    exact hexact
  · obtain ⟨y, hy, hdout⟩ := hdecode u hu
    refine ⟨y, hy, ?_⟩
    have hjoin := abs_real_f16Join_sub_le s.cfg.arith r.ip r.sf
    calc |real y.dout - real s.din|
        = |(real (f16Join s.cfg.arith r.ip r.sf) - f16Value r.ip r.sf) + (f16Value r.ip r.sf - real s.din)| := by
          rw [hdout]; congr 1; ring
      _ < 1 / 2 ^ 36 + (1 / 100000 + 1 / 2 ^ 36) := (abs_add_le _ _).trans_lt (add_lt_add_of_le_of_lt hjoin hnear)
      _ ≤ 1 / 100000 + 1 / 2 ^ 30 := by norm_num

end Sys2Proof.Machine

/-! ## Every step completes (O14, O18), and the code a command ends with (O20, O21)

A command answers as `exec_next` says, and issuing a word as `issue_next` says: the code and what an error leaves unchanged
are read off these two, and the branches of the host port all answer a next state. -/

namespace Sys2Proof.Machine

/-- The step of a host with no action to come (60_exceptions.md R178). -/
theorem step_nil {s : State} (h : s.host = []) : step s = .next s := by
  unfold step
  rw [h]

/-- Settles O14: with an empty list the step is idling. -/
theorem idleStepChangesNothing : Obligations.IdleStepChangesNothing := fun _ h => step_nil h

section completes
variable (s : State)

/-- Every command completes: out of bounds with OOB, and in bounds as its shape says (60_exceptions.md R160). -/
theorem exec_completes (i : Instr) : ∃ t, exec i s = .next t := by
  rcases Nat.lt_or_ge s.cfg.bufLen (i.offset + width i) with hout | hin
  · exact ⟨_, exec_outside hout⟩
  rcases command_shape i with ⟨hi, -⟩ | ⟨hi, hf, -⟩ | ⟨hi, -⟩ | ⟨hi, hf, -⟩
  · exact ⟨_, exec_intEncode hi hin⟩
  · exact ⟨_, exec_intDecode hi hf hin⟩
  · cases hr : f16Split s.cfg s.din with
    | none => exact ⟨_, exec_f16Encode_range hi hin hr⟩
    | some r => exact ⟨_, exec_f16Encode_ok hi hin hr⟩
  · exact ⟨_, exec_f16Decode hi hf hin⟩

theorem issue_completes : ∃ t, issue s = .next t := by
  cases hd : decode s.cmd with
  | ok i => exact issue_ok hd ▸ exec_completes s i
  | error e => exact ⟨_, issue_error hd⟩

theorem hostReadReg_completes (r : Nat) : ∃ t, hostReadReg r s = .next t := by
  unfold hostReadReg
  split <;> exact ⟨_, rfl⟩

/-- Only a write of CMD issues a command; every other write answers at once (10_state.md R36, R38). -/
theorem hostWriteReg_completes (r : Nat) (v : Dword) : ∃ t, hostWriteReg r v s = .next t := by
  unfold hostWriteReg
  split
  case h_1 => exact issue_completes _
  all_goals exact ⟨_, rfl⟩

theorem hostReadBuf_completes (i : Nat) : ∃ t, hostReadBuf i s = .next t := by
  unfold hostReadBuf
  split <;> exact ⟨_, rfl⟩

theorem hostWriteBuf_completes (i : Nat) (v : Dword) : ∃ t, hostWriteBuf i v s = .next t := by
  unfold hostWriteBuf
  split <;> exact ⟨_, rfl⟩

theorem hostAct_completes (a : HostAction) : ∃ t, hostAct a s = .next t := by
  cases a with
  | readReg r => exact hostReadReg_completes s r
  | writeReg r v => exact hostWriteReg_completes s r v
  | readBuf i => exact hostReadBuf_completes s i
  | writeBuf i v => exact hostWriteBuf_completes s i v
  | movod => exact ⟨_, rfl⟩
  | reset => exact ⟨_, rfl⟩

theorem step_completes : ∃ t, step s = .next t := by
  cases hh : s.host with
  | nil => exact ⟨s, step_nil hh⟩
  | cons a rest => exact step_cons hh ▸ hostAct_completes _ a

end completes

/-- Settles O18: each shape of command answers a next state, and so does each host action. -/
theorem everyStepCompletes : Obligations.EveryStepCompletes :=
  ⟨fun i s => exec_completes s i, step_completes⟩

section codes
variable {i : Instr} {s t : State}

/-- A command that ends with an error raises it: STATUS is the code alone, with no flag (60_exceptions.md R163). -/
theorem exec_raises_of_code_ne_ok (h : exec i s = .next t) (hc : statusCode t.status ≠ 0#4) :
    ∃ e, t = s.setStatus (statusWord false false e) := by
  rcases exec_next h with ⟨-, rfl⟩ | ⟨-, ⟨-, rfl⟩ | ⟨-, -, rfl⟩ | ⟨-, -, rfl⟩ | ⟨-, r, -, rfl⟩ | ⟨-, -, rfl⟩⟩
  case inl => exact ⟨.oob, rfl⟩
  case inr.inr.inr.inl => exact ⟨.range, rfl⟩
  all_goals exact absurd (statusCode_statusWord ..) hc

/-- So does an issued word, legal or not. -/
theorem issue_raises_of_code_ne_ok (h : issue s = .next t) (hc : statusCode t.status ≠ 0#4) :
    ∃ e, t = s.setStatus (statusWord false false e) := by
  obtain ⟨i, -, he⟩ | ⟨e, -, rfl⟩ := issue_next h
  · exact exec_raises_of_code_ne_ok he hc
  · exact ⟨.illegal, rfl⟩

/-- A command in bounds that F16Split does not reject ends with CODE = OK (60_exceptions.md R161). -/
theorem exec_code_ok (h : exec i s = .next t) (hin : i.offset + width i ≤ s.cfg.bufLen)
    (hn : ¬ (isF16Encode i = true ∧ RangeCause s.cfg s.din)) : statusCode t.status = 0#4 := by
  rcases exec_next h with ⟨hout, -⟩ | ⟨-, ⟨-, rfl⟩ | ⟨-, -, rfl⟩ | ⟨hi, hr, -⟩ | ⟨-, r, -, rfl⟩ | ⟨-, -, rfl⟩⟩
  case inl => omega
  case inr.inr.inr.inl => exact absurd ⟨hi, (f16Split_eq_none _ _).1 hr⟩ hn
  all_goals exact statusCode_statusWord ..

/-- The code of a command whose answer is known to raise it. -/
theorem statusCode_of_eq_raise {r : Result} {e : Code} (h : r = .next t)
    (hr : r = .next (s.setStatus (statusWord false false e))) : statusCode t.status = e.bits := by
  obtain rfl := Host.Outcome.next.inj (h.symm.trans hr)
  exact statusCode_statusWord ..

end codes

/-- Settles O20: STATUS is the word of a code with no flag, which is that code zero-extended. -/
theorem failingCommandWritesOnlyStatus : Obligations.FailingCommandWritesOnlyStatus := by
  intro s t h hc
  obtain ⟨e, rfl⟩ := issue_raises_of_code_ne_ok h hc
  rw [setStatus_status, statusCode_statusWord, ← statusWord_raise]
  rfl

/-- Settles O21: decoding comes first, then the bounds check, then F16Split of an F16 encode. -/
theorem codesFollowPriority : Obligations.CodesFollowPriority := by
  intro s t h
  refine ⟨fun hill => ?_, fun i hd => ?_⟩
  · obtain ⟨e, he⟩ := (decode_eq_error _).2 hill
    exact statusCode_of_eq_raise h (issue_error he)
  · rw [issue_ok hd] at h
    exact ⟨fun hout => statusCode_of_eq_raise h (exec_outside hout),
      fun hin hi hr => statusCode_of_eq_raise h (exec_f16Encode_range hi hin ((f16Split_eq_none _ _).2 hr)),
      fun hin hn => exec_code_ok h hin hn⟩

end Sys2Proof.Machine

/-! ## Reset (O12, O13, O45)

A reset leaves no byte listed, so every byte reads as an unwritten one does after that reset (70_reset_and_hazards.md R180
to R182). -/

namespace Sys2Proof.Machine

/-- The step of the platform's reset between two accesses (70_reset_and_hazards.md R180). -/
theorem step_reset {s : State} {rest : List HostAction} (h : s.host = .reset :: rest) :
    step s = .next ({ s with host := rest } : State).afterReset :=
  step_cons h

@[simp] theorem afterReset_answer (s : State) : s.afterReset.answer = none := rfl

theorem readByte_of_mem_nil {s : State} (h : s.mem = []) (a : Nat) : s.readByte a = s.unlisted a := by
  unfold State.readByte
  rw [h]
  rfl

@[simp] theorem afterReset_unlisted (s : State) :
    s.afterReset.unlisted = unwrittenByte s.cfg.bufReset (s.resets + 1) := rfl

/-- The buffer is cleared or drawn afresh, whatever stood in it (70_reset_and_hazards.md R182). -/
theorem afterReset_readByte (s : State) (a : Nat) :
    s.afterReset.readByte a = unwrittenByte s.cfg.bufReset (s.resets + 1) a := by
  rw [readByte_of_mem_nil (afterReset_mem s), afterReset_unlisted]

/-- Settles O12: the registers are those of `afterReset`, and an unwritten byte is what BUF_RESET says. -/
theorem resetGivesResetState : Obligations.ResetGivesResetState := by
  intro s rest h
  refine ⟨_, step_reset h, rfl, rfl, rfl, rfl, rfl, rfl, rfl, rfl, fun hz a => ?_, fun hu a => ?_⟩
  · rw [afterReset_readByte, hz, unwrittenByte]
  · rw [afterReset_readByte, hu, unwrittenByte]

/-- Settles O13: each field of `State.reset` is written out in its definition, and `Cfg.vectors` takes every default. -/
theorem resetStateHasSpecValues : Obligations.ResetStateHasSpecValues :=
  ⟨rfl, rfl, rfl, rfl, rfl, rfl, rfl, rfl⟩

/-- Settles O45: BUF_LEN = 8 is legal, the buffer lists no byte, and STATUS is the word of OK with no flag. -/
theorem resetMeetsTheInvariant : Obligations.ResetMeetsTheInvariant where
  cfg := show 8 ≤ 65536 by decide
  canonical := Memory.wf_reset
  inside := fun _ hc => absurd hc List.not_mem_nil
  status := statusLegal_complete false false

end Sys2Proof.Machine
